-- ==== Sys2Proof/Word.lean ====
section
/-! DEFINITION. The word types of the block and their plainest conversions (00_scope.md R8, R10, R11). -/

namespace Sys2Proof

/-- A `u32`: XLEN = 32 bits, unsigned (00_scope.md R8). -/
abbrev Word := BitVec 32

/-- A `u64`: PLEN = 64 bits, the width of the widened product (00_scope.md R8). -/
abbrev DWord := BitVec 64

/-- One byte lane of the host bus (20_memory.md R53). -/
abbrev Byte := BitVec 8

/-- `zext_64` (00_scope.md R11). -/
abbrev zext64 (v : Word) : DWord := v.setWidth 64

/-- `trunc_32` (00_scope.md R11). -/
abbrev trunc32 (v : DWord) : Word := v.setWidth 32

end Sys2Proof
end

