-- ==== Sys2Proof/Config.lean ====
section
/-! DEFINITION. The block's fixed parameters (00_scope.md R8), its open parameters (R9) and its free values (10_state.md R30). -/

namespace Sys2Proof

/-- The open parameters, which a model takes as arguments (00_scope.md R9). They are fixed for one machine; State carries
them so that a claim over every state is a claim over every value of them (log 2). -/
structure Config where
  /-- WINDOW_BASE, the host address of register offset 0x00, a multiple of 32. -/
  windowBase : Nat
  /-- STEP_CYCLES, the clock cycles one sequencer step takes, a positive integer. No rule depends on it. -/
  stepCycles : Nat
deriving DecidableEq, Repr

/-- WINDOW_SIZE (00_scope.md R8). -/
def Config.windowSize : Nat := 32

/-- WITNESS_BASES, in order (00_scope.md R8, 10_state.md R31). -/
def Config.witnessBases : List Word := [2#32, 7#32, 61#32]

/-- TD_DIVISORS, the 30 odd integers 3 to 61, ascending (00_scope.md R8, 42_primality.md R161). -/
def Config.trialDivisors : List Word :=
  [3#32, 5#32, 7#32, 9#32, 11#32, 13#32, 15#32, 17#32, 19#32, 21#32, 23#32, 25#32, 27#32, 29#32, 31#32] ++
  [33#32, 35#32, 37#32, 39#32, 41#32, 43#32, 45#32, 47#32, 49#32, 51#32, 53#32, 55#32, 57#32, 59#32, 61#32]

/-- TD_BOUND, the largest trial divisor (00_scope.md R8), at the width of the register `k`. -/
def Config.tdBound : BitVec 6 := 61#6

/-! Free values: what the hidden registers hold once a command has completed or a reset has happened (10_state.md R30,
30_encoding.md R78, 70_reset_and_hazards.md R230). Each is applied to a counter in State, so that two are never the same
unknown by accident; nothing in Lean can evaluate one (log 4). -/

opaque Config.freeOp : Nat → BitVec 3
opaque Config.freeWb : Nat → Word
opaque Config.freeM : Nat → Word
opaque Config.freePw : Nat → Word
opaque Config.freeAcc : Nat → Word
opaque Config.freeEx : Nat → Word
opaque Config.freeX : Nat → Word
opaque Config.freeN : Nat → Word
opaque Config.freeD : Nat → Word
opaque Config.freeE : Nat → BitVec 5
opaque Config.freeSq : Nat → BitVec 5
opaque Config.freeK : Nat → BitVec 6
opaque Config.freeBi : Nat → BitVec 2

end Sys2Proof
end

