-- ==== Sys2Proof/Syntax.lean ====
section
/-! DEFINITION. The command set: one constructor per row of spec/opcode_table.json (30_encoding.md R71). -/

namespace Sys2Proof

/-- The five commands. A command carries no immediates, register specifiers or addressing modes: every operand is a whole
ARG register (30_encoding.md R72), so no constructor has a field. -/
inductive Instr where
  /-- the widened multiply-reduce (40_modexp.md R100) -/
  | mulmod
  /-- modular exponentiation (40_modexp.md R110) -/
  | powmod
  /-- the strong probable-prime test (41_sprp.md R130) -/
  | sprp
  /-- the trial-division verdict (42_primality.md R160) -/
  | tdiv
  /-- the primality decision (42_primality.md R164) -/
  | isprime
deriving DecidableEq, Repr

end Sys2Proof
end

