-- ==== Sys2Proof/WellFormed.lean ====
section
/-! DEFINITION. Well-formedness of the open parameters and of commands. -/

namespace Sys2Proof

/-- The constraints on the open parameters: WINDOW_BASE a multiple of 32, STEP_CYCLES positive (00_scope.md R9). -/
def Config.wf (c : Config) : Bool :=
  decide (c.windowBase % 32 = 0) && decide (0 < c.stepCycles)

/-- A command has no operand field (30_encoding.md R72), so every term of `Instr` is a command of the block. What can be
ill-formed is a WORD, which `decode` refuses by name. -/
def Instr.wf : Instr → Bool
  | .mulmod => true
  | .powmod => true
  | .sprp => true
  | .tdiv => true
  | .isprime => true

end Sys2Proof
end

