-- ==== Sys2Proof/Decode.lean ====
section
/-! DEFINITION. Command words: the byte lanes of the bus, the decoder and the encoder (30_encoding.md R70, R71, R73, R80;
20_memory.md R53). -/

namespace Sys2Proof

/-- Byte lane i of a register: bits `[8i+7 : 8i]` (20_memory.md R53). Lane 0 is at the lowest address. -/
def lanesOfWord (w : Word) : List Byte :=
  [w.extractLsb' 0 8, w.extractLsb' 8 8, w.extractLsb' 16 8, w.extractLsb' 24 8]

/-- The register value four byte lanes carry (20_memory.md R53). Only ever applied to four lanes: an access of any other
width is a bus error before this (20_memory.md R51). -/
def wordOfLanes (l : List Byte) : Word :=
  l.getD 3 0#8 ++ l.getD 2 0#8 ++ l.getD 1 0#8 ++ l.getD 0 0#8

/-- OPC, bits [3:0] of a command word (30_encoding.md R70). -/
def opcField (w : Word) : BitVec 4 := w.extractLsb' 0 4

/-- RSV, bits [31:4] of a command word (30_encoding.md R70). -/
def rsvField (w : Word) : BitVec 28 := w.extractLsb' 4 28

/-- Why a command word is refused. -/
inductive Reject where
  /-- not four bytes: no command has another length (30_encoding.md R70) -/
  | length (n : Nat)
  /-- RSV ≠ 0, whatever OPC is (30_encoding.md R80) -/
  | reservedBits (rsv : BitVec 28)
  /-- OPC 0x0 or 0x6 to 0xF (30_encoding.md R71, R80) -/
  | reservedOpcode (opc : BitVec 4)
deriving DecidableEq, Repr

/-- The opcode map, read from left to right (30_encoding.md R71). -/
def instrOfOpc (o : BitVec 4) : Option Instr :=
  if o = 0x1#4 then some .mulmod
  else if o = 0x2#4 then some .powmod
  else if o = 0x3#4 then some .sprp
  else if o = 0x4#4 then some .tdiv
  else if o = 0x5#4 then some .isprime
  else none

/-- The decoder, total on all 2^32 words (30_encoding.md R73, R80). -/
def decode (w : Word) : Except Reject Instr :=
  if rsvField w = 0#28 then
    match instrOfOpc (opcField w) with
    | some i => .ok i
    | none => .error (.reservedOpcode (opcField w))
  else .error (.reservedBits (rsvField w))

/-- The decoder on any bytes, as they lie on the bus, lane 0 first. -/
def decodeBytes (l : List Byte) : Except Reject Instr :=
  if l.length = 4 then decode (wordOfLanes l) else .error (.length l.length)

/-- Legality of a word, as the spec writes it (30_encoding.md R73). -/
def legal (w : Word) : Bool :=
  decide (rsvField w = 0#28) &&
    (decide (opcField w = 0x1#4) || decide (opcField w = 0x2#4) || decide (opcField w = 0x3#4) ||
      decide (opcField w = 0x4#4) || decide (opcField w = 0x5#4))

/-- The opcode map, read from right to left (30_encoding.md R71). -/
def opcOf : Instr → BitVec 4
  | .mulmod => 0x1#4
  | .powmod => 0x2#4
  | .sprp => 0x3#4
  | .tdiv => 0x4#4
  | .isprime => 0x5#4

/-- The encoder: RSV = 0 in [31:4], OPC in [3:0] (30_encoding.md R70). -/
def encode (i : Instr) : Word := 0#28 ++ opcOf i

/-- A command word as the bus carries it. -/
def encodeBytes (i : Instr) : List Byte := lanesOfWord (encode i)

/-- The 32-bit word of the table's numbering: the low `nbits` bits of w, every bit above them 0 (log 11). -/
def tableWord (nbits w : Nat) : Word := BitVec.ofNat 32 (w % 2 ^ nbits)

/-- What the decoder reads from an instruction of the opcode table whose bits are w. A command is one 32-bit word, so the
bits above 32 must be 0. -/
def decodeTableWord (nbits w : Nat) : Option Instr :=
  if w % 2 ^ nbits < 2 ^ 32 then
    match decodeBytes (lanesOfWord (tableWord nbits w)) with
    | .ok i => some i
    | .error _ => none
  else none

end Sys2Proof
end

