-- ==== Sys2Proof/Machine/State.lean ====
section
/-! DEFINITION. The state of the block, the ways a step can stop, and the state after reset (10_state.md). -/

namespace Sys2Proof.Machine

/-- The sequencer's control state, which stands in for a program counter (10_state.md R27). -/
inductive Phase where
  /-- IDLE: no command in flight -/
  | idle
  /-- MM: one widened multiply-reduce -/
  | mm
  /-- PM_INIT: reduce the base, initialise the result -/
  | pmInit
  /-- PM_LOOP: one square-and-multiply iteration, or the end test -/
  | pmLoop
  /-- SP_CHECK: the edge checks and the decomposition -/
  | spCheck
  /-- SP_TEST: the test of base^d mod n against 1 -/
  | spTest
  /-- SP_SQ: one iteration of the squaring loop -/
  | spSq
  /-- TD_PRE: the n ≤ 2 and even checks -/
  | tdPre
  /-- TD_LOOP: one trial divisor -/
  | tdLoop
deriving DecidableEq, Repr

/-- The codes of STATUS.ERR (60_exceptions.md R205). -/
inductive ErrCode where
  | none
  | illegalCmd
  | modZero
  | baseZero
deriving DecidableEq, Repr

/-- The trial-division verdict (42_primality.md R160). -/
inductive Verdict where
  | composite
  | prime
  | survivor
deriving DecidableEq, Repr

/-- The causes of a bus error (60_exceptions.md R200). -/
inductive BusCause where
  /-- access size ≠ 4 -/
  | width
  /-- offset not a multiple of 4 -/
  | misaligned
  /-- offset 0x18 or 0x1C -/
  | reserved
  /-- a write to STATUS or RESULT -/
  | readOnly
deriving DecidableEq, Repr

/-- The six host-visible registers (10_state.md R20). -/
inductive Reg where
  | arg0
  | arg1
  | arg2
  | cmd
  | status
  | result
deriving DecidableEq, Repr

/-- One event of the total order (20_memory.md R56, 70_reset_and_hazards.md R230). -/
inductive Event where
  /-- a host read of `size` bytes at a host address -/
  | read (addr : Nat) (size : Nat)
  /-- a host write of the given byte lanes, lane 0 first, from a host address on -/
  | write (addr : Nat) (lanes : List Byte)
  /-- the engine's turn to take a step -/
  | engine
  /-- a reset -/
  | reset
deriving DecidableEq, Repr

/-- What the bus answered to the host's last access (log 5). -/
inductive Response where
  /-- no access has been made yet -/
  | none
  /-- the byte lanes a read returned, lane 0 first -/
  | data (lanes : List Byte)
  /-- a write was delivered -/
  | ack
  /-- the access ended in a bus error (60_exceptions.md R200) -/
  | busError (cause : BusCause)
  /-- the access was outside the window, so not addressed to this block (20_memory.md R50) -/
  | notAddressed
deriving DecidableEq, Repr

/-- The sequencer's datapath registers, hidden from the host, each at its width (10_state.md R29). -/
structure Datapath where
  /-- opcode of the in-flight command -/
  op : BitVec 3
  /-- the current witness base; for POWMOD the base operand -/
  wb : Word
  /-- the modulus -/
  m : Word
  /-- the running square of the base; for MULMOD operand b -/
  pw : Word
  /-- the running result of the exponentiation; for MULMOD operand a -/
  acc : Word
  /-- the remaining exponent -/
  ex : Word
  /-- the source's "modular power state" -/
  x : Word
  /-- the candidate -/
  n : Word
  /-- the odd part of n − 1 -/
  d : Word
  /-- the count of trailing zero bits of n − 1 -/
  e : BitVec 5
  /-- squaring iterations left -/
  sq : BitVec 5
  /-- the current trial divisor -/
  k : BitVec 6
  /-- index of the current witness base -/
  bi : BitVec 2
deriving DecidableEq, Repr

/-- The state of the block: six host-visible registers (10_state.md R20), the phase (R27) and the datapath (R29); the open
parameters (00_scope.md R9); and three fields of the model's own (events, response, freeCtr; log 1, 5, 4). -/
structure State where
  arg0 : Word
  arg1 : Word
  arg2 : Word
  cmd : Word
  status : Word
  result : Word
  phase : Phase
  dp : Datapath
  cfg : Config
  /-- the events still to come, oldest first -/
  events : List Event
  /-- the bus's answer to the last host access -/
  response : Response
  /-- the counter the free values are applied to -/
  freeCtr : Nat
deriving DecidableEq, Repr

/-- How a step stops. Both are raised by the engine's phase rules, only in states that 10_state.md R32 rules out and no run
reaches, where a rule would do what the spec says is never done. Both are SAFE: the model stops and claims nothing (log 9). -/
inductive Fault where
  /-- a phase rule would evaluate `mod` with divisor 0 (00_scope.md R12: "never evaluated"). SAFE. -/
  | divisorZero
  /-- a phase rule would write a value that does not fit its register, or index W past its end (00_scope.md R10,
  10_state.md R29, R31). SAFE. -/
  | registerRange
deriving DecidableEq, Repr

/-- Why a command has no meaning here. -/
inductive Refusal where
  /-- raised by `exec` for a command not modelled yet; no arm of this model raises it. SAFE. -/
  | notModelled (mnemonic : String)
deriving DecidableEq, Repr

/-- What one event of the block answers. -/
abbrev Result := Host.Outcome State Fault Refusal

/-- The datapath in `State.reset`: the spec leaves it unspecified (10_state.md R30); zero is a DESIGN CHOICE (log 3). -/
def Datapath.zero : Datapath :=
  { op := 0#3, wb := 0#32, m := 0#32, pw := 0#32, acc := 0#32, ex := 0#32, x := 0#32, n := 0#32, d := 0#32,
    e := 0#5, sq := 0#5, k := 0#6, bi := 0#2 }

/-- The block right after reset (70_reset_and_hazards.md R230): every host-visible register 0, phase IDLE. The datapath is
unspecified there (log 3), WINDOW_BASE and STEP_CYCLES are open parameters (log 2), and no event is pending (log 1). -/
def State.reset : State :=
  { arg0 := 0#32, arg1 := 0#32, arg2 := 0#32, cmd := 0#32, status := 0#32, result := 0#32, phase := .idle,
    dp := Datapath.zero, cfg := { windowBase := 0, stepCycles := 1 }, events := [], response := .none, freeCtr := 0 }

end Sys2Proof.Machine
end

