-- ==== Sys2Proof/Machine/Flags.lean ====
section
/-! DEFINITION. The fields of STATUS and how each event writes them (10_state.md R23, R24; 60_exceptions.md R205). -/

namespace Sys2Proof.Machine

/-- STATUS.BUSY, bit 0. -/
def Status.busy (w : Word) : Bool := w.getLsbD 0

/-- STATUS.DONE, bit 1. -/
def Status.done (w : Word) : Bool := w.getLsbD 1

/-- STATUS.OVR, bit 2. -/
def Status.ovr (w : Word) : Bool := w.getLsbD 2

/-- STATUS.ERR, bits [7:4]. -/
def Status.err (w : Word) : BitVec 4 := w.extractLsb' 4 4

/-- The reserved bits [3] and [31:8], in place; they read 0. -/
def Status.reserved (w : Word) : Word := w &&& 0xFFFFFF08#32

/-- The 4-bit code of an error (60_exceptions.md R205). -/
def ErrCode.code : ErrCode → BitVec 4
  | .none => 0x0#4
  | .illegalCmd => 0x1#4
  | .modZero => 0x2#4
  | .baseZero => 0x3#4

/-- Writes one flag of a STATUS word and leaves every other bit. -/
def Status.setFlag (i : Nat) (b : Bool) (w : Word) : Word :=
  if b then w ||| (1#32 <<< i) else w &&& ~~~(1#32 <<< i)

/-- Writes STATUS.ERR and leaves every other bit. -/
def Status.setErr (c : ErrCode) (w : Word) : Word :=
  (w &&& ~~~0xF0#32) ||| (c.code.setWidth 32 <<< 4)

/-- A whole STATUS word `{BUSY, DONE, OVR, ERR}`, its reserved bits 0. -/
def Status.pack (busy done ovr : Bool) (c : ErrCode) : Word :=
  Status.setErr c (Status.setFlag 2 ovr (Status.setFlag 1 done (Status.setFlag 0 busy 0#32)))

/-- STATUS after acceptance with no operand error (30_encoding.md R77). -/
def Status.accepted : Word := Status.pack true false false .none

/-- STATUS after a refused word or an operand error (30_encoding.md R75, 60_exceptions.md R203). -/
def Status.failed (c : ErrCode) : Word := Status.pack false true false c

/-- STATUS at completion: BUSY 0, DONE 1, ERR NONE, OVR unchanged (30_encoding.md R78). -/
def Status.completed (w : Word) : Word :=
  Status.setErr .none (Status.setFlag 1 true (Status.setFlag 0 false w))

/-- STATUS after a dropped CMD write: OVR 1, the rest unchanged (70_reset_and_hazards.md R241). -/
def Status.overrun (w : Word) : Word := Status.setFlag 2 true w

/-- STATUS.BUSY of a state. -/
def State.busy (s : State) : Bool := Status.busy s.status

/-- STATUS.DONE of a state. -/
def State.done (s : State) : Bool := Status.done s.status

/-- STATUS.OVR of a state. -/
def State.ovr (s : State) : Bool := Status.ovr s.status

/-- STATUS.ERR of a state. -/
def State.err (s : State) : BitVec 4 := Status.err s.status

end Sys2Proof.Machine
end

