-- ==== Sys2Proof/Machine/Ops.lean ====
section
/-! DEFINITION. The operations every command and event is made of: the register window's map (20_memory.md), issue and
completion (30_encoding.md R75 to R78), the one error operation (60_exceptions.md R203) and reset (70_reset_and_hazards.md
R230). -/

namespace Sys2Proof.Machine

/-- The register at an offset of the window; `none` is a reserved or undefined offset (10_state.md R20). -/
def regAt (off : Nat) : Option Reg :=
  if off = 0x00 then some .arg0
  else if off = 0x04 then some .arg1
  else if off = 0x08 then some .arg2
  else if off = 0x0C then some .cmd
  else if off = 0x10 then some .status
  else if off = 0x14 then some .result
  else none

/-- The offset of a register (10_state.md R20). -/
def offsetOf : Reg → Nat
  | .arg0 => 0x00
  | .arg1 => 0x04
  | .arg2 => 0x08
  | .cmd => 0x0C
  | .status => 0x10
  | .result => 0x14

/-- The host address of a register. -/
def regAddr (c : Config) (r : Reg) : Nat := c.windowBase + offsetOf r

/-- The value of a host-visible register. -/
def readReg (r : Reg) (s : State) : Word :=
  match r with
  | .arg0 => s.arg0
  | .arg1 => s.arg1
  | .arg2 => s.arg2
  | .cmd => s.cmd
  | .status => s.status
  | .result => s.result

/-- `off = addr − WINDOW_BASE` for an access in the window, by its first address; `none` is an access not addressed to this
block (20_memory.md R50; log 6, 7). -/
def windowOffset (c : Config) (addr : Nat) : Option Nat :=
  if c.windowBase ≤ addr ∧ addr < c.windowBase + Config.windowSize then some (addr - c.windowBase) else none

/-- What an access of `size` bytes at an offset reaches: a register, or the first bus error in the order WIDTH, MISALIGNED,
RESERVED (20_memory.md R51, R52; 60_exceptions.md R206). -/
def checkAccess (off size : Nat) : Except BusCause Reg :=
  if size ≠ 4 then .error .width
  else if off % 4 ≠ 0 then .error .misaligned
  else match regAt off with
    | some r => .ok r
    | none => .error .reserved

/-- The bus's answer to the host, and nothing else. -/
def respond (r : Response) (s : State) : State := { s with response := r }

/-- The hidden registers once no command holds them: a free value each (10_state.md R30, log 4). -/
def Datapath.free (c : Nat) : Datapath :=
  { op := Config.freeOp c, wb := Config.freeWb c, m := Config.freeM c, pw := Config.freePw c, acc := Config.freeAcc c,
    ex := Config.freeEx c, x := Config.freeX c, n := Config.freeN c, d := Config.freeD c, e := Config.freeE c,
    sq := Config.freeSq c, k := Config.freeK c, bi := Config.freeBi c }

/-- `complete(v)` (30_encoding.md R78). -/
def complete (v : Word) (s : State) : State :=
  { s with result := v, status := Status.completed s.status, phase := .idle,
           dp := Datapath.free s.freeCtr, freeCtr := s.freeCtr + 1 }

/-- `raise CmdError(code)`, the one way a command word ends in an error (60_exceptions.md R203, R204): RESULT and STATUS
are written; phase, datapath, ARG0 to ARG2 and CMD are not. There is no return from it (R210). -/
def cmdError (c : ErrCode) (s : State) : State :=
  { s with result := 0#32, status := Status.failed c }

/-- A CMD write while busy: only STATUS.OVR changes (70_reset_and_hazards.md R241). -/
def dropCommand (s : State) : State := { s with status := Status.overrun s.status }

/-- `issue(w)`, with what follows for a word that is not dropped (30_encoding.md R75): busy is tested first, then CMD takes
the word. -/
def issue (w : Word) (go : State → State) (s : State) : State :=
  if s.busy then dropCommand s else go { s with cmd := w }

/-- `op`: the opcode of a command at the width of the hidden register (10_state.md R29). -/
def opOf (i : Instr) : BitVec 3 := (opcOf i).setWidth 3

/-- The part of `latch` every command shares: the opcode, the first phase and STATUS; RESULT is unchanged
(30_encoding.md R77). -/
def latch (i : Instr) (p : Phase) (dp : Datapath) (s : State) : State :=
  { s with dp := { dp with op := opOf i }, phase := p, status := Status.accepted }

/-- `reset()` (70_reset_and_hazards.md R230). The datapath is unspecified after it: a free value (log 4). -/
def resetBlock (s : State) : State :=
  { s with arg0 := 0#32, arg1 := 0#32, arg2 := 0#32, cmd := 0#32, status := Status.pack false false false .none,
           result := 0#32, phase := .idle, dp := Datapath.free s.freeCtr, freeCtr := s.freeCtr + 1 }

end Sys2Proof.Machine
end

