-- ==== Sys2Proof/Machine/Operands.lean ====
section
/-! DEFINITION. Operands: which ARG registers each command latches and where (10_state.md R21, 30_encoding.md R72, R77), the
operand errors (R76), and the arithmetic primitives of the rules (00_scope.md R11, R14). -/

namespace Sys2Proof.Machine

/-- The widened multiply-reduce: an exact 64-bit product, reduced, truncated (00_scope.md R14). It requires m ≥ 1; every
phase that multiplies checks that first. -/
def mulmod (a b m : Word) : Word := trunc32 ((zext64 a * zext64 b) % zext64 m)

/-- Searches for the lowest set bit of v among bits i, i+1, …, i+fuel−1. -/
def ctzFrom (v : Word) : Nat → Nat → Nat
  | 0, i => i
  | fuel + 1, i => if v.getLsbD i then i else ctzFrom v fuel (i + 1)

/-- `ctz(v)`: the number of trailing zero bits of v ≠ 0 (00_scope.md R11). -/
def ctz (v : Word) : Nat := ctzFrom v 32 0

/-- `x[0]`: the lowest bit of a word (00_scope.md R11). -/
def lowBit (v : Word) : Bool := v.getLsbD 0

/-- A boolean result: 1 for true, 0 for false (30_encoding.md R74). -/
def boolWord (b : Bool) : Word := if b then 1#32 else 0#32

/-- A verdict's result: 0 COMPOSITE, 1 PRIME, 2 SURVIVOR (30_encoding.md R74, 42_primality.md R160). -/
def Verdict.word : Verdict → Word
  | .composite => 0#32
  | .prime => 1#32
  | .survivor => 2#32

/-- MOD_ZERO's condition (30_encoding.md R76, 60_exceptions.md R201). -/
def modZero (s : State) : Bool := decide (s.arg2 = 0#32)

/-- BASE_ZERO's condition: base 0, n > 2 and n odd (30_encoding.md R76, 60_exceptions.md R202). -/
def baseZero (s : State) : Bool :=
  decide (s.arg0 = 0#32) && decide (2#32 < s.arg1) && lowBit s.arg1

/-- MULMOD's operands: a = ARG0, b = ARG1, m = ARG2 (30_encoding.md R77). -/
def latchMulmod (s : State) : State :=
  latch .mulmod .mm { s.dp with acc := s.arg0, pw := s.arg1, m := s.arg2 } s

/-- POWMOD's operands: base = ARG0, exponent = ARG1, m = ARG2 (30_encoding.md R77). -/
def latchPowmod (s : State) : State :=
  latch .powmod .pmInit { s.dp with wb := s.arg0, ex := s.arg1, m := s.arg2 } s

/-- SPRP's operands: base = ARG0, n = ARG1; ARG2 is ignored (30_encoding.md R77). -/
def latchSprp (s : State) : State :=
  latch .sprp .spCheck { s.dp with wb := s.arg0, n := s.arg1 } s

/-- TDIV's operand: n = ARG0; ARG1 and ARG2 are ignored (30_encoding.md R77). -/
def latchTdiv (s : State) : State :=
  latch .tdiv .tdPre { s.dp with n := s.arg0 } s

/-- ISPRIME's operand: n = ARG0; ARG1 and ARG2 are ignored (30_encoding.md R77). -/
def latchIsprime (s : State) : State :=
  latch .isprime .tdPre { s.dp with n := s.arg0 } s

end Sys2Proof.Machine
end

