-- ==== Sys2Proof/Machine/Modexp.lean ====
section
/-! DEFINITION. The modular exponentiation engine (40_modexp.md): the commands MULMOD and POWMOD, the phases MM, PM_INIT and
PM_LOOP, and the spec's function-level pseudocode of POWMOD. -/

namespace Sys2Proof.Machine

/-- MULMOD: what its CMD write does (40_modexp.md R100, 30_encoding.md R75 to R77). -/
def execMulmod (s : State) : Result :=
  .next (issue (encode .mulmod) (fun u => if modZero u then cmdError .modZero u else latchMulmod u) s)

/-- POWMOD: what its CMD write does (40_modexp.md R110, 30_encoding.md R75 to R77). -/
def execPowmod (s : State) : Result :=
  .next (issue (encode .powmod) (fun u => if modZero u then cmdError .modZero u else latchPowmod u) s)

/-- Phase MM (40_modexp.md R101). -/
def stepMm (s : State) : Result :=
  if s.dp.m = 0#32 then .fault .divisorZero
  else .next (complete (mulmod s.dp.acc s.dp.pw s.dp.m) s)

/-- Phase PM_INIT (40_modexp.md R111). -/
def stepPmInit (s : State) : Result :=
  if s.dp.m = 0#32 then .fault .divisorZero
  else .next { s with dp := { s.dp with pw := s.dp.wb % s.dp.m, acc := 1#32 % s.dp.m }, phase := .pmLoop }

/-- `pm_return()` (40_modexp.md R113). -/
def pmReturn (s : State) : State :=
  if s.dp.op = opOf .powmod then complete s.dp.acc s
  else { s with dp := { s.dp with x := s.dp.acc }, phase := .spTest }

/-- Phase PM_LOOP: the end test, or one iteration; both multiplies read the old `pw` (40_modexp.md R112). -/
def stepPmLoop (s : State) : Result :=
  if s.dp.ex = 0#32 then .next (pmReturn s)
  else if s.dp.m = 0#32 then .fault .divisorZero
  else .next { s with dp := { s.dp with
      acc := if lowBit s.dp.ex then mulmod s.dp.acc s.dp.pw s.dp.m else s.dp.acc,
      pw := mulmod s.dp.pw s.dp.pw s.dp.m,
      ex := s.dp.ex >>> 1 } }

/-- The loop of `powmod` from given values of acc, pw and ex: `while ex != 0` (40_modexp.md R110). A 32-bit exponent is 0
after 32 halvings, so 32 rounds of fuel never cut it short. -/
def powLoop (m : Word) : Nat → Word → Word → Word → Word
  | 0, acc, _, _ => acc
  | fuel + 1, acc, pw, ex =>
    if ex = 0#32 then acc
    else powLoop m fuel (if lowBit ex then mulmod acc pw m else acc) (mulmod pw pw m) (ex >>> 1)

/-- The function `powmod(b, x, m)`, requires m ≥ 1 (40_modexp.md R110). -/
def powmod (b x m : Word) : Word := powLoop m 32 (1#32 % m) (b % m) x

end Sys2Proof.Machine
end

