-- ==== Sys2Proof/Machine/MillerRabin.lean ====
section
/-! DEFINITION. The Miller–Rabin tester (41_sprp.md): the command SPRP, the phases SP_CHECK, SP_TEST and SP_SQ, and the
spec's function-level pseudocode of SPRP. -/

namespace Sys2Proof.Machine

/-- SPRP: what its CMD write does (41_sprp.md R130, 30_encoding.md R75 to R77). -/
def execSprp (s : State) : Result :=
  .next (issue (encode .sprp) (fun u => if baseZero u then cmdError .baseZero u else latchSprp u) s)

/-- Goes on to the witness base W[i] (41_sprp.md R137, 42_primality.md R165, 10_state.md R31). W has three entries. -/
def enterWitness (i : Nat) (s : State) : Result :=
  match Config.witnessBases[i]? with
  | some b => .next { s with dp := { s.dp with bi := BitVec.ofNat 2 i, wb := b }, phase := .spCheck }
  | none => .fault .registerRange

/-- `sp_return(v)` (41_sprp.md R137). -/
def spReturn (v : Bool) (s : State) : Result :=
  if s.dp.op = opOf .sprp then .next (complete (boolWord v) s)
  else if v = false then .next (complete 0#32 s)
  else if s.dp.bi = 2#2 then .next (complete 1#32 s)
  else enterWitness (s.dp.bi.toNat + 1) s

/-- The decomposition n − 1 = d · 2^e and the set-up of the exponentiation (41_sprp.md R132, R133). -/
def spSetup (s : State) : State :=
  { s with dp := { s.dp with
      e := BitVec.ofNat 5 (ctz (s.dp.n - 1#32)),
      d := (s.dp.n - 1#32) >>> ctz (s.dp.n - 1#32),
      m := s.dp.n,
      ex := (s.dp.n - 1#32) >>> ctz (s.dp.n - 1#32) }, phase := .pmInit }

/-- Phase SP_CHECK (41_sprp.md R132). -/
def stepSpCheck (s : State) : Result :=
  if s.dp.n ≤ 2#32 then spReturn (decide (s.dp.n = 2#32)) s
  else if lowBit s.dp.n = false then spReturn false s
  else if s.dp.wb = 0#32 then .fault .divisorZero
  else if s.dp.n % s.dp.wb = 0#32 then spReturn (decide (s.dp.n = s.dp.wb)) s
  else .next (spSetup s)

/-- Phase SP_TEST (41_sprp.md R135). -/
def stepSpTest (s : State) : Result :=
  if s.dp.x = 1#32 then spReturn true s
  else .next { s with dp := { s.dp with sq := s.dp.e }, phase := .spSq }

/-- Phase SP_SQ (41_sprp.md R136). The next squaring would reduce modulo n, so n = 0 is stopped before `n − 1` is formed. -/
def stepSpSq (s : State) : Result :=
  if s.dp.sq = 0#5 then spReturn false s
  else if s.dp.n = 0#32 then .fault .divisorZero
  else if s.dp.x = s.dp.n - 1#32 then spReturn true s
  else .next { s with dp := { s.dp with x := mulmod s.dp.x s.dp.x s.dp.n, sq := s.dp.sq - 1#5 } }

/-- `repeat e times`: the squaring loop of `sprp` from a given x (41_sprp.md R130, step 4). -/
def squareLoop (n : Word) : Nat → Word → Bool
  | 0, _ => false
  | left + 1, x => if x = n - 1#32 then true else squareLoop n left (mulmod x x n)

/-- Steps 3 to 5 of `sprp` from x = base^d mod n (41_sprp.md R130). -/
def witnessTest (n : Word) (e : Nat) (x : Word) : Bool :=
  if x = 1#32 then true else squareLoop n e x

/-- The function `sprp(base, n)`, requires base ≠ 0 where n > 2 is odd (41_sprp.md R130). -/
def sprp (base n : Word) : Bool :=
  if n ≤ 2#32 then decide (n = 2#32)
  else if lowBit n = false then false
  else if n % base = 0#32 then decide (n = base)
  else witnessTest n (ctz (n - 1#32)) (powmod base ((n - 1#32) >>> ctz (n - 1#32)) n)

end Sys2Proof.Machine
end

