-- ==== Sys2Proof/Machine/Primality.lean ====
section
/-! DEFINITION. The trial-division filter and the primality decision (42_primality.md): the commands TDIV and ISPRIME, the
phases TD_PRE and TD_LOOP, and the spec's function-level pseudocode of both. -/

namespace Sys2Proof.Machine

/-- TDIV: what its CMD write does (42_primality.md R160, 30_encoding.md R75 to R77). It has no operand error. -/
def execTdiv (s : State) : Result := .next (issue (encode .tdiv) latchTdiv s)

/-- ISPRIME: what its CMD write does (42_primality.md R164, 30_encoding.md R75 to R77). It has no operand error. -/
def execIsprime (s : State) : Result := .next (issue (encode .isprime) latchIsprime s)

/-- `td_return(v)` (42_primality.md R165). -/
def tdReturn (v : Verdict) (s : State) : Result :=
  if s.dp.op = opOf .tdiv then .next (complete v.word s)
  else match v with
    | .prime => .next (complete 1#32 s)
    | .composite => .next (complete 0#32 s)
    | .survivor => enterWitness 0 s

/-- Phase TD_PRE (42_primality.md R162). -/
def stepTdPre (s : State) : Result :=
  if s.dp.n ≤ 2#32 then tdReturn (if s.dp.n = 2#32 then .prime else .composite) s
  else if lowBit s.dp.n = false then tdReturn .composite s
  else .next { s with dp := { s.dp with k := 3#6 }, phase := .tdLoop }

/-- Phase TD_LOOP: equality before divisibility at each divisor (42_primality.md R161, R163). -/
def stepTdLoop (s : State) : Result :=
  if s.dp.n = s.dp.k.setWidth 32 then tdReturn .prime s
  else if s.dp.k = 0#6 then .fault .divisorZero
  else if s.dp.n % s.dp.k.setWidth 32 = 0#32 then tdReturn .composite s
  else if s.dp.k = Config.tdBound then tdReturn .survivor s
  else if 64 ≤ s.dp.k.toNat + 2 then .fault .registerRange
  else .next { s with dp := { s.dp with k := s.dp.k + 2#6 } }

/-- Policy step 3 over a list of divisors still to try (42_primality.md R160). -/
def trialLoop (n : Word) : List Word → Verdict
  | [] => .survivor
  | k :: ks =>
    if n = k then .prime
    else if n % k = 0#32 then .composite
    else trialLoop n ks

/-- The function `trial_div(n)` (42_primality.md R160). -/
def trialDiv (n : Word) : Verdict :=
  if n ≤ 2#32 then (if n = 2#32 then .prime else .composite)
  else if lowBit n = false then .composite
  else trialLoop n Config.trialDivisors

/-- The function `is_prime(n)` (42_primality.md R164): `List.all` asks the bases in order and stops at the first failure. -/
def isPrime (n : Word) : Bool :=
  match trialDiv n with
  | .prime => true
  | .composite => false
  | .survivor => Config.witnessBases.all (fun b => sprp b n)

end Sys2Proof.Machine
end

