-- ==== Sys2Proof/Machine/Dispatch.lean ====
section
/-! DEFINITION. exec: the meaning of each command word, one arm per constructor of Instr. -/

namespace Sys2Proof.Machine

/-- What a CMD write of a command's word does to the block (30_encoding.md R75 to R77). -/
def exec (i : Instr) (s : State) : Host.Outcome State Fault Refusal :=
  match i with
  | .mulmod => Sys2Proof.Machine.execMulmod s
  | .powmod => Sys2Proof.Machine.execPowmod s
  | .sprp => Sys2Proof.Machine.execSprp s
  | .tdiv => Sys2Proof.Machine.execTdiv s
  | .isprime => Sys2Proof.Machine.execIsprime s

end Sys2Proof.Machine
end

