-- ==== Sys2Proof/Machine/Engine.lean ====
section
/-! DEFINITION. The engine's step: the rule of the current phase (10_state.md R28). -/

namespace Sys2Proof.Machine

/-- One step of the sequencer. In phase IDLE the engine has no step, so its turn passes (10_state.md R28, log 1). -/
def engineStep (s : State) : Result :=
  match s.phase with
  | .idle => .next s
  | .mm => stepMm s
  | .pmInit => stepPmInit s
  | .pmLoop => stepPmLoop s
  | .spCheck => stepSpCheck s
  | .spTest => stepSpTest s
  | .spSq => stepSpSq s
  | .tdPre => stepTdPre s
  | .tdLoop => stepTdLoop s

end Sys2Proof.Machine
end

