-- ==== Sys2Proof/Machine/Bus.lean ====
section
/-! DEFINITION. The host's accesses to the register window and the events of the total order (20_memory.md R50 to R57). -/

namespace Sys2Proof.Machine

/-- A host write of word w to CMD (20_memory.md R55, 30_encoding.md R75): a legal word is its command; an illegal word is
refused with ILLEGAL_CMD; while busy either is dropped, unchecked (60_exceptions.md R206). -/
def issueWord (w : Word) (s : State) : Result :=
  match decode w with
  | .ok i => exec i s
  | .error _ => .next (issue w (cmdError .illegalCmd) s)

/-- `MemRead(addr, n)` (20_memory.md R54): no side effect but the bus's answer. -/
def hostRead (addr size : Nat) (s : State) : State :=
  match windowOffset s.cfg addr with
  | none => respond .notAddressed s
  | some off =>
    match checkAccess off size with
    | .error c => respond (.busError c) s
    | .ok r => respond (.data (lanesOfWord (readReg r s))) s

/-- `MemWrite(addr, n, v)` (20_memory.md R55). A delivered write is acknowledged, also when its command word is refused or
dropped: such errors are reported in STATUS only (60_exceptions.md R209, log 8). -/
def hostWrite (addr : Nat) (lanes : List Byte) (s : State) : Result :=
  match windowOffset s.cfg addr with
  | none => .next (respond .notAddressed s)
  | some off =>
    match checkAccess off lanes.length with
    | .error c => .next (respond (.busError c) s)
    | .ok .arg0 => .next { respond .ack s with arg0 := wordOfLanes lanes }
    | .ok .arg1 => .next { respond .ack s with arg1 := wordOfLanes lanes }
    | .ok .arg2 => .next { respond .ack s with arg2 := wordOfLanes lanes }
    | .ok .cmd => issueWord (wordOfLanes lanes) (respond .ack s)
    | .ok .status => .next (respond (.busError .readOnly) s)
    | .ok .result => .next (respond (.busError .readOnly) s)

/-- One event of the total order, atomically (20_memory.md R56). -/
def deliver (e : Event) (s : State) : Result :=
  match e with
  | .read addr size => .next (hostRead addr size s)
  | .write addr lanes => hostWrite addr lanes s
  | .engine => engineStep s
  | .reset => .next (resetBlock s)

/-- The next event of the total order: the oldest pending one, or the engine's turn when none is pending (10_state.md R28's
weak fairness; log 1). -/
def nextEvent (s : State) : Result :=
  match s.events with
  | [] => deliver .engine s
  | e :: rest => deliver e { s with events := rest }

/-- The host's write of a command word: the 4-byte write at CMD's address (30_encoding.md R81, `wr CMD, w`). -/
def commandWrite (c : Config) (w : Word) : Event := .write (regAddr c .cmd) (lanesOfWord w)

end Sys2Proof.Machine
end

