-- ==== Sys2Proof/Machine/Step.lean ====
section
/-! DEFINITION. One step of the machine, and how a command word is placed so that the next step runs it. -/

namespace Sys2Proof.Machine

/-- One step: one event of the total order (20_memory.md R56). -/
def step (s : State) : Host.Outcome State Fault Refusal := nextEvent s

/-- The block fetches nothing (10_state.md R27): a command word comes to it as a host write to CMD, so the word stands at
the head of the pending events (log 10, 11). -/
def State.withFetchWord (s : State) (nbits w : Nat) : State :=
  { s with events := commandWrite s.cfg (tableWord nbits w) :: s.events }

end Sys2Proof.Machine
end

