-- ==== Sys2Proof/Safety.lean ====
section
/-! DEFINITION. The terms the claims are stated in: the invariants the sequencer keeps (10_state.md R24, R27, R32), the value
an in-flight command will complete with, how many engine steps it still needs at most (70_reset_and_hazards.md R246), and what
it is for a command to complete. -/

namespace Sys2Proof.Machine

/-! ## Invariants -/

/-- What STATUS, CMD and RESULT always satisfy: the reserved bits read 0 and ERR is at most 3 (10_state.md R23, 60_exceptions.md
R205); phase IDLE exactly when BUSY = 0 (10_state.md R27); BUSY = 1 implies DONE = 0 and ERR = NONE, and BUSY = DONE = 0 holds
only after reset, before the first CMD write (R24); an error comes with RESULT 0 (70_reset_and_hazards.md R243). -/
abbrev State.StatusOk (s : State) : Prop :=
  Status.reserved s.status = 0#32 ∧ s.err ≤ 3#4 ∧ (s.phase = .idle ↔ s.busy = false) ∧
  (s.busy = true → s.done = false ∧ s.err = 0#4) ∧
  (s.busy = false → s.done = false → s.status = 0#32 ∧ s.cmd = 0#32 ∧ s.result = 0#32) ∧
  (s.err ≠ 0#4 → s.result = 0#32)

/-- n ≥ 3 is odd and n − 1 = d · 2^e with d odd and 1 ≤ e (10_state.md R32(c), (d); 41_sprp.md R133). -/
abbrev Datapath.Decomposed (d : Datapath) : Prop :=
  3#32 ≤ d.n ∧ lowBit d.n = true ∧ lowBit d.d = true ∧ 1 ≤ d.e.toNat ∧ d.n.toNat - 1 = d.d.toNat * 2 ^ d.e.toNat

/-- The command running the strong probable-prime test is SPRP or ISPRIME, and for ISPRIME n is a survivor and wb = W[bi]
(10_state.md R32(g)). -/
abbrev Datapath.Testing (d : Datapath) : Prop :=
  (d.op = opOf .sprp ∨ d.op = opOf .isprime) ∧
  (d.op = opOf .isprime → trialDiv d.n = .survivor ∧ Config.witnessBases[d.bi.toNat]? = some d.wb)

/-- The command running the trial division is TDIV or ISPRIME (30_encoding.md R77). -/
abbrev Datapath.Filtering (d : Datapath) : Prop := d.op = opOf .tdiv ∨ d.op = opOf .isprime

/-- What the datapath satisfies in each phase (10_state.md R32, 41_sprp.md R134, 42_primality.md R163). -/
abbrev Datapath.Ok (d : Datapath) : Phase → Prop
  | .idle => True
  | .mm => d.op = opOf .mulmod ∧ d.m ≠ 0#32
  | .pmInit => d.m ≠ 0#32 ∧ (d.op = opOf .powmod ∨ (d.Testing ∧ d.Decomposed ∧ d.m = d.n ∧ d.ex = d.d))
  | .pmLoop => d.acc < d.m ∧ d.pw < d.m ∧ (d.op = opOf .powmod ∨ (d.Testing ∧ d.Decomposed ∧ d.m = d.n ∧ d.ex ≤ d.d))
  | .spCheck => d.Testing ∧ (d.wb = 0#32 → d.n ≤ 2#32 ∨ lowBit d.n = false)
  | .spTest => d.Testing ∧ d.Decomposed ∧ d.x < d.n
  | .spSq => d.Testing ∧ d.Decomposed ∧ d.x < d.n ∧ d.sq ≤ d.e
  | .tdPre => d.Filtering
  | .tdLoop => d.Filtering ∧ 2#32 < d.n ∧ lowBit d.n = true ∧ d.k.getLsbD 0 = true ∧ 3#6 ≤ d.k ∧ d.k ≤ 61#6 ∧
      trialDiv d.n = trialLoop d.n (Config.trialDivisors.drop ((d.k.toNat - 3) / 2))

/-- The invariant of the block: the open parameters are within their constraints (00_scope.md R9), STATUS is as R24 says, and
the datapath is as R32 says for the phase. -/
abbrev State.Inv (s : State) : Prop := s.cfg.wf = true ∧ s.StatusOk ∧ s.dp.Ok s.phase

/-! ## What an in-flight command will answer -/

/-- The result after a strong probable-prime test of the current base has answered v: SPRP's own, or for ISPRIME the rest of
the bases after index bi (41_sprp.md R137). -/
def Datapath.afterTest (d : Datapath) (v : Bool) : Word :=
  if d.op = opOf .sprp then boolWord v
  else boolWord (v && (Config.witnessBases.drop (d.bi.toNat + 1)).all (fun b => sprp b d.n))

/-- The result after the modular exponentiation has answered r (40_modexp.md R113, 41_sprp.md R135). -/
def Datapath.afterPow (d : Datapath) (r : Word) : Word :=
  if d.op = opOf .powmod then r else d.afterTest (witnessTest d.n d.e.toNat r)

/-- The result after trial division has answered v (42_primality.md R165). -/
def Datapath.afterFilter (d : Datapath) (v : Verdict) : Word :=
  if d.op = opOf .tdiv then v.word
  else match v with
    | .prime => 1#32
    | .composite => 0#32
    | .survivor => boolWord (Config.witnessBases.all (fun b => sprp b d.n))

/-- The value the in-flight command will complete with, read from the phase and the datapath alone (30_encoding.md R79): the
function-level pseudocode taken up where the phase stands. -/
def Datapath.pending (d : Datapath) : Phase → Word
  | .idle => 0#32
  | .mm => mulmod d.acc d.pw d.m
  | .pmInit => d.afterPow (powmod d.wb d.ex d.m)
  | .pmLoop => d.afterPow (powLoop d.m 32 d.acc d.pw d.ex)
  | .spCheck => d.afterTest (sprp d.wb d.n)
  | .spTest => d.afterTest (witnessTest d.n d.e.toNat d.x)
  | .spSq => d.afterTest (squareLoop d.n d.sq.toNat d.x)
  | .tdPre => d.afterFilter (trialDiv d.n)
  | .tdLoop => d.afterFilter (trialLoop d.n (Config.trialDivisors.drop ((d.k.toNat - 3) / 2)))

/-- What a command answers for the operands in ARG0 to ARG2, by its function (40_modexp.md R100, R110; 41_sprp.md R130;
42_primality.md R160, R164). -/
def State.answer (s : State) : Instr → Word
  | .mulmod => mulmod s.arg0 s.arg1 s.arg2
  | .powmod => powmod s.arg0 s.arg1 s.arg2
  | .sprp => boolWord (sprp s.arg0 s.arg1)
  | .tdiv => (trialDiv s.arg0).word
  | .isprime => boolWord (isPrime s.arg0)

/-- The operand error of a command for the operands in ARG0 to ARG2 (30_encoding.md R76). -/
def State.operandError (s : State) : Instr → Bool
  | .mulmod => decide (s.arg2 = 0#32)
  | .powmod => decide (s.arg2 = 0#32)
  | .sprp => decide (s.arg0 = 0#32) && decide (2#32 < s.arg1) && lowBit s.arg1
  | .tdiv => false
  | .isprime => false

/-- The state acceptance leaves for a command with no operand error (30_encoding.md R77). -/
def latchOf : Instr → State → State
  | .mulmod => latchMulmod
  | .powmod => latchPowmod
  | .sprp => latchSprp
  | .tdiv => latchTdiv
  | .isprime => latchIsprime

/-- The event is a host access: a read or a write (20_memory.md R56). -/
def Event.isAccess : Event → Bool
  | .read _ _ => true
  | .write _ _ => true
  | .engine => false
  | .reset => false

/-- The event writes register r: a 4-byte host write at its address (20_memory.md R55). -/
def Event.writesReg (c : Config) (r : Reg) : Event → Bool
  | .read _ _ => false
  | .write addr lanes => decide (addr = regAddr c r) && decide (lanes.length = 4)
  | .engine => false
  | .reset => false

/-! ## Progress -/

/-- `bitlen(x)` (40_modexp.md R115(e)): 0 for 0, else 1 + ⌊log2 x⌋. -/
def bitlen (v : Word) : Nat := if v = 0#32 then 0 else 1 + Nat.log2 v.toNat

/-- Engine steps the bases still to come may take: 37 each (41_sprp.md R140). -/
def Datapath.basesLeft (d : Datapath) : Nat := if d.op = opOf .isprime then 37 * (2 - d.bi.toNat) else 0

/-- A bound on the engine steps an in-flight command still takes (40_modexp.md R116, 41_sprp.md R140, 42_primality.md R170). -/
def Datapath.stepsLeft (d : Datapath) : Phase → Nat
  | .idle => 0
  | .mm => 1
  | .pmInit => bitlen d.ex + 2 + (if d.op = opOf .powmod then 0 else d.e.toNat + 2 + d.basesLeft)
  | .pmLoop => bitlen d.ex + 1 + (if d.op = opOf .powmod then 0 else d.e.toNat + 2 + d.basesLeft)
  | .spCheck => 37 + d.basesLeft
  | .spTest => d.e.toNat + 2 + d.basesLeft
  | .spSq => d.sq.toNat + 1 + d.basesLeft
  | .tdPre => 31 + (if d.op = opOf .isprime then 111 else 0)
  | .tdLoop => (61 - d.k.toNat) / 2 + 1 + (if d.op = opOf .isprime then 111 else 0)

/-- The bound on a command's engine steps (70_reset_and_hazards.md R246). -/
def stepBound : Instr → Nat
  | .mulmod => 1
  | .powmod => 34
  | .sprp => 37
  | .tdiv => 31
  | .isprime => 142

/-! ## Completion -/

/-- The host-visible state a command leaves when it has completed with v: RESULT and STATUS as 30_encoding.md R78 gives (OVR
was cleared at acceptance), CMD the word (10_state.md R22), ARG0 to ARG2, the parameters and the bus's answer untouched. -/
def CompletedFrom (i : Instr) (v : Word) (s u : State) : Prop :=
  u.phase = .idle ∧ u.result = v ∧ u.status = 0x00000002#32 ∧ u.cmd = encode i ∧ u.arg0 = s.arg0 ∧ u.arg1 = s.arg1 ∧
  u.arg2 = s.arg2 ∧ u.cfg = s.cfg ∧ u.events = s.events ∧ u.response = s.response

/-- The command, issued in s, is accepted, stays busy for exactly k − 1 engine steps and completes with v in the k-th. -/
def CompletesIn (i : Instr) (k : Nat) (v : Word) (s : State) : Prop :=
  ∃ t u, exec i s = .next t ∧ Host.Core.run Sys2Proof.core k t = .next u ∧ CompletedFrom i v s u ∧
    ∀ j, j < k → ∃ w, Host.Core.run Sys2Proof.core j t = .next w ∧ w.phase ≠ .idle

end Sys2Proof.Machine
end

