-- ==== Sys2Proof/Certificates/Slice0/Obligations.lean ====
section
/-! DEFINITION. The statements for the provers: what the spec's rules say the block does. Each docstring names the rule. -/

open Sys2Proof Sys2Proof.Machine

/-! ## Command words -/

/-- 30_encoding.md R71, R80: the five words of the opcode map, and five sample reserved words (three with a reserved OPC, two
with RSV ≠ 0), each refused by its name. -/
def Obligations.TableWordsDecode : Prop :=
  decode 0x00000001#32 = .ok .mulmod ∧ decode 0x00000002#32 = .ok .powmod ∧ decode 0x00000003#32 = .ok .sprp ∧
  decode 0x00000004#32 = .ok .tdiv ∧ decode 0x00000005#32 = .ok .isprime ∧
  decode 0x00000000#32 = .error (.reservedOpcode 0x0#4) ∧ decode 0x00000006#32 = .error (.reservedOpcode 0x6#4) ∧
  decode 0x0000000F#32 = .error (.reservedOpcode 0xF#4) ∧ decode 0x00000011#32 = .error (.reservedBits 0x1#28) ∧
  decode 0x80000005#32 = .error (.reservedBits 0x8000000#28)

/-- 30_encoding.md R73: a word is legal exactly when w[31:4] = 0 and w[3:0] is 1 to 5; that is exactly for five words, and
the decoder gives a command exactly for those. -/
def Obligations.ExactlyFiveWordsAreLegal : Prop :=
  ∀ w : Word,
    (legal w = true ↔ w.toNat / 16 = 0 ∧ 1 ≤ w.toNat % 16 ∧ w.toNat % 16 ≤ 5) ∧
    (legal w = true ↔ w = 0x00000001#32 ∨ w = 0x00000002#32 ∨ w = 0x00000003#32 ∨ w = 0x00000004#32 ∨ w = 0x00000005#32) ∧
    (legal w = true ↔ ∃ i, decode w = .ok i)

/-- Decode and encode agree in both directions, on any bytes of any length (30_encoding.md R70, R71; 20_memory.md R53): the
bytes of a command are exactly its encoding's lanes. -/
def Obligations.DecodeBytesIffEncodeBytes : Prop :=
  ∀ (i : Instr) (l : List Byte), i.wf = true → (decodeBytes l = .ok i ↔ l = encodeBytes i)

/-! ## A step, and the issue of a command word -/

/-- A step runs the decoded command: when the next event is a host write at CMD's address whose lanes decode to i, the step
is exec of i, with the event taken off the list and the bus's acknowledgement given (the model's own fields, log 1, 5). -/
def Obligations.StepRunsDecodedCommand : Prop :=
  ∀ (s : State) (i : Instr) (lanes : List Byte) (rest : List Event),
    s.events = .write (s.cfg.windowBase + 0x0C) lanes :: rest → decodeBytes lanes = .ok i →
    step s = exec i { s with events := rest, response := .ack }

/-- 20_memory.md R56, 10_state.md R28: a step delivers the oldest pending event, one at a time; the engine's turn is one step of
the sequencer, which has none in phase IDLE. That an empty list is the engine's turn is the model's choice (log 1). -/
def Obligations.StepDeliversTheNextEvent : Prop :=
  ∀ s : State,
    (∀ e rest, s.events = e :: rest → step s = deliver e { s with events := rest }) ∧
    deliver .engine s = engineStep s ∧
    (s.events = [] → step s = engineStep s) ∧
    (s.phase = .idle → engineStep s = .next s)

/-- 60_exceptions.md R204: a CMD write of an illegal word while idle reports ILLEGAL_CMD (code 1) as R203 does, with RESULT 0,
and leaves the word in CMD, where the host can read it back; nothing else changes. -/
def Obligations.IllegalWordReportsIllegalCmd : Prop :=
  ∀ (s : State) (w : Word), s.busy = false → legal w = false →
    issueWord w s = .next { s with cmd := w, result := 0#32, status := 0x00000012#32 }

/-- 30_encoding.md R77: an accepted command with no operand error copies exactly its operands into the hidden registers, sets
its first phase and STATUS busy, and changes nothing else (RESULT among it). -/
def Obligations.AcceptanceLatchesOperands : Prop :=
  ∀ s : State, s.busy = false →
    (s.arg2 ≠ 0#32 → exec .mulmod s = .next { s with
      cmd := 0x00000001#32, status := 0x00000001#32, phase := .mm,
      dp := { s.dp with op := 1#3, acc := s.arg0, pw := s.arg1, m := s.arg2 } }) ∧
    (s.arg2 ≠ 0#32 → exec .powmod s = .next { s with
      cmd := 0x00000002#32, status := 0x00000001#32, phase := .pmInit,
      dp := { s.dp with op := 2#3, wb := s.arg0, ex := s.arg1, m := s.arg2 } }) ∧
    (¬ (s.arg0 = 0#32 ∧ 2 < s.arg1.toNat ∧ s.arg1.toNat % 2 = 1) → exec .sprp s = .next { s with
      cmd := 0x00000003#32, status := 0x00000001#32, phase := .spCheck,
      dp := { s.dp with op := 3#3, wb := s.arg0, n := s.arg1 } }) ∧
    (exec .tdiv s = .next { s with
      cmd := 0x00000004#32, status := 0x00000001#32, phase := .tdPre, dp := { s.dp with op := 4#3, n := s.arg0 } }) ∧
    (exec .isprime s = .next { s with
      cmd := 0x00000005#32, status := 0x00000001#32, phase := .tdPre, dp := { s.dp with op := 5#3, n := s.arg0 } })

/-- 60_exceptions.md R203: an operand error at acceptance (MOD_ZERO, code 2; BASE_ZERO, code 3) writes RESULT 0 and STATUS
with DONE and the code; CMD holds the word; the phase, the hidden registers and ARG0 to ARG2 are unchanged. -/
def Obligations.OperandErrorReportedAtAcceptance : Prop :=
  ∀ s : State, s.busy = false →
    (s.arg2 = 0#32 → exec .mulmod s = .next { s with cmd := 0x00000001#32, result := 0#32, status := 0x00000022#32 }) ∧
    (s.arg2 = 0#32 → exec .powmod s = .next { s with cmd := 0x00000002#32, result := 0#32, status := 0x00000022#32 }) ∧
    (s.arg0 = 0#32 → 2 < s.arg1.toNat → s.arg1.toNat % 2 = 1 →
      exec .sprp s = .next { s with cmd := 0x00000003#32, result := 0#32, status := 0x00000032#32 })

/-- 70_reset_and_hazards.md R241: a CMD write while busy sets OVR and changes nothing else, whatever the word is; and OVR stays
1 until a CMD write while idle, or a reset. -/
def Obligations.BusyDropsTheCommandWrite : Prop :=
  (∀ (s : State) (w : Word), s.busy = true → issueWord w s = .next { s with status := s.status ||| 0x00000004#32 }) ∧
  (∀ (s : State) (i : Instr), s.busy = true → exec i s = .next { s with status := s.status ||| 0x00000004#32 }) ∧
  (∀ (s t : State) (e : Event), deliver e s = .next t → s.ovr = true → t.ovr = false →
    e = .reset ∨ (e.writesReg s.cfg .cmd = true ∧ s.busy = false))

/-! ## Each command runs to completion -/

/-- 40_modexp.md R101: phase MM completes with the widened multiply-reduce, in one step; so MULMOD takes exactly one step
after acceptance and answers (ARG0 · ARG1) mod ARG2. -/
def Obligations.MulmodCompletesInOneStep : Prop :=
  (∀ s : State, s.phase = .mm → s.dp.m ≠ 0#32 →
    ∃ t, engineStep s = .next t ∧ t.phase = .idle ∧ t.result.toNat = s.dp.acc.toNat * s.dp.pw.toNat % s.dp.m.toNat ∧
      t.busy = false ∧ t.done = true ∧ t.err = 0#4 ∧ t.ovr = s.ovr) ∧
  (∀ s : State, s.busy = false → s.arg2 ≠ 0#32 →
    ∃ t u v, exec .mulmod s = .next t ∧ t.phase ≠ .idle ∧ engineStep t = .next u ∧ CompletedFrom .mulmod v s u ∧
      v.toNat = s.arg0.toNat * s.arg1.toNat % s.arg2.toNat)

/-- 40_modexp.md R116: POWMOD takes one step of PM_INIT, bitlen(x) iterating steps of PM_LOOP and one final step of PM_LOOP in
which it completes: bitlen(x) + 2 steps, 2 at least and 34 at most; and it answers ARG0^ARG1 mod ARG2 (R114, R115(c), with
0^0 = 1). -/
def Obligations.PowmodCompletes : Prop :=
  ∀ s : State, s.busy = false → s.events = [] → s.arg2 ≠ 0#32 →
    2 ≤ bitlen s.arg1 + 2 ∧ bitlen s.arg1 + 2 ≤ 34 ∧
    (∃ v, CompletesIn .powmod (bitlen s.arg1 + 2) v s ∧ v.toNat = s.arg0.toNat ^ s.arg1.toNat % s.arg2.toNat) ∧
    (∃ t, exec .powmod s = .next t ∧ t.phase = .pmInit ∧
      ∀ j, 1 ≤ j → j ≤ bitlen s.arg1 + 1 → ∃ w, Host.Core.run Sys2Proof.core j t = .next w ∧ w.phase = .pmLoop)

/-- 41_sprp.md R138, R140: SPRP completes within 37 steps with the value of the function `sprp` of R130. -/
def Obligations.SprpCompletes : Prop :=
  ∀ s : State, s.busy = false → s.events = [] → ¬ (s.arg0 = 0#32 ∧ 2 < s.arg1.toNat ∧ s.arg1.toNat % 2 = 1) →
    ∃ k, 1 ≤ k ∧ k ≤ 37 ∧ CompletesIn .sprp k (if sprp s.arg0 s.arg1 then 1#32 else 0#32) s

/-- 42_primality.md R166, R170: TDIV completes within 31 steps with the verdict of R160: 0 COMPOSITE, 1 PRIME, 2 SURVIVOR. -/
def Obligations.TdivCompletes : Prop :=
  ∀ s : State, s.busy = false → s.events = [] →
    ∃ k, 1 ≤ k ∧ k ≤ 31 ∧ CompletesIn .tdiv k
      (match trialDiv s.arg0 with
        | .composite => 0#32
        | .prime => 1#32
        | .survivor => 2#32) s

/-- 42_primality.md R166, R170: ISPRIME completes within 142 steps with the value of the function `is_prime` of R164. -/
def Obligations.IsprimeCompletes : Prop :=
  ∀ s : State, s.busy = false → s.events = [] →
    ∃ k, 1 ≤ k ∧ k ≤ 142 ∧ CompletesIn .isprime k (if isPrime s.arg0 then 1#32 else 0#32) s

/-! ## In flight, under any interleaving -/

/-- 70_reset_and_hazards.md R245: a host access completes in its own event, whatever the phase and the access. -/
def Obligations.HostAccessNeverStalls : Prop :=
  ∀ (s : State) (e : Event) (rest : List Event), s.events = e :: rest → e.isAccess = true →
    ∃ t, step s = .next t ∧ t.events = rest ∧ t.cfg = s.cfg

/-- 20_memory.md R59, 70_reset_and_hazards.md R240 to R242: while a command is in flight no host access changes its hidden
registers, its phase, RESULT or CMD, nor any STATUS field but OVR. -/
def Obligations.HostAccessLeavesCommandAlone : Prop :=
  ∀ (s t : State) (e : Event) (rest : List Event), s.events = e :: rest → e.isAccess = true → s.busy = true →
    step s = .next t →
    t.dp = s.dp ∧ t.phase = s.phase ∧ t.result = s.result ∧ t.cmd = s.cmd ∧ t.freeCtr = s.freeCtr ∧
    (t.status = s.status ∨ t.status = s.status ||| 0x00000004#32) ∧
    t.busy = true ∧ t.done = s.done ∧ t.err = s.err

/-- 30_encoding.md R77, R79: an accepted command is busy, its answer to come is its function of ARG0 to ARG2 as they stand at
acceptance, and its steps are bounded as 70_reset_and_hazards.md R246 says. -/
def Obligations.AcceptedAnswerIsTheFunction : Prop :=
  ∀ (s : State) (i : Instr), s.busy = false → s.operandError i = false →
    ∃ t, exec i s = .next t ∧ t.busy = true ∧ t.dp.pending t.phase = s.answer i ∧ t.dp.stepsLeft t.phase ≤ stepBound i ∧
      t.dp.op = opOf i ∧ t.arg0 = s.arg0 ∧ t.arg1 = s.arg1 ∧ t.arg2 = s.arg2 ∧ t.result = s.result

/-- 30_encoding.md R79, 41_sprp.md R138, 42_primality.md R166: whatever event comes next, but a reset, an in-flight command
keeps the answer it is computing, or completes with exactly that answer; RESULT does not change before. -/
def Obligations.InFlightAnswerIsKept : Prop :=
  ∀ s : State, s.Inv → s.busy = true → s.events.head? ≠ some .reset →
    ∃ t, step s = .next t ∧
      ((t.busy = true ∧ t.dp.pending t.phase = s.dp.pending s.phase ∧ t.result = s.result ∧
          t.dp.stepsLeft t.phase ≤ s.dp.stepsLeft s.phase) ∨
       (t.busy = false ∧ t.done = true ∧ t.err = 0#4 ∧ t.ovr = s.ovr ∧ t.phase = .idle ∧
          t.result = s.dp.pending s.phase))

/-- 70_reset_and_hazards.md R246: from any in-flight state the invariant allows, the engine's turns alone complete the command
within the bound, with the answer that was to come. -/
def Obligations.InFlightCommandCompletes : Prop :=
  ∀ s : State, s.Inv → s.busy = true → s.events = [] →
    ∃ k u, 1 ≤ k ∧ k ≤ s.dp.stepsLeft s.phase ∧ Host.Core.run Sys2Proof.core k s = .next u ∧ u.phase = .idle ∧
      u.done = true ∧ u.err = 0#4 ∧ u.result = s.dp.pending s.phase

/-- 30_encoding.md R79, 20_memory.md R56, R59: however host accesses and engine turns interleave, and whatever ARG registers or
command words the host writes meanwhile, the step in which an accepted command completes answers the command's function of
ARG0 to ARG2 as they stood at acceptance (no reset in between). -/
def Obligations.AnswerUnderEveryInterleaving : Prop :=
  ∀ (s t u : State) (i : Instr) (k : Nat), s.Inv → s.busy = false → s.operandError i = false →
    (∀ e, e ∈ s.events → e ≠ .reset) → exec i s = .next t →
    (∀ j, j ≤ k → ∃ w : State, Host.Core.run Sys2Proof.core j t = .next w ∧ w.busy = true) →
    Host.Core.run Sys2Proof.core (k + 1) t = .next u → u.busy = false →
    u.result = s.answer i ∧ u.done = true ∧ u.err = 0#4 ∧ u.phase = .idle

/-- 30_encoding.md R77, R79: what the engine computes depends on the phase and the hidden registers alone, not on ARG0 to
ARG2, CMD, STATUS or RESULT. -/
def Obligations.EngineReadsOnlyItsDatapath : Prop :=
  ∀ s t s' : State, s.phase ≠ .idle → t.phase = s.phase → t.dp = s.dp → engineStep s = .next s' →
    ∃ t', engineStep t = .next t' ∧ t'.phase = s'.phase ∧
      (s'.phase ≠ .idle → t'.dp = s'.dp ∧ s'.result = s.result ∧ t'.result = t.result) ∧
      (s'.phase = .idle → t'.result = s'.result)

/-- 30_encoding.md R79, 70_reset_and_hazards.md R250: nothing the block does depends on STEP_CYCLES. -/
def Obligations.StepCyclesChangeNothing : Prop :=
  ∀ (s t : State) (c : Nat), step s = .next t →
    step { s with cfg := { s.cfg with stepCycles := c } } = .next { t with cfg := { t.cfg with stepCycles := c } }

/-- 10_state.md R21, R22, R24, R25: the engine writes no ARG register, not CMD and not OVR; RESULT and the rest of STATUS only
when it completes. The model's own fields, but the free values' counter, are untouched too. -/
def Obligations.EngineStepFrame : Prop :=
  ∀ s t : State, s.phase ≠ .idle → engineStep s = .next t →
    t.arg0 = s.arg0 ∧ t.arg1 = s.arg1 ∧ t.arg2 = s.arg2 ∧ t.cmd = s.cmd ∧ t.ovr = s.ovr ∧ t.cfg = s.cfg ∧
    t.events = s.events ∧ t.response = s.response ∧
    ((t.phase ≠ .idle ∧ t.status = s.status ∧ t.result = s.result) ∨
     (t.phase = .idle ∧ t.busy = false ∧ t.done = true ∧ t.err = 0#4 ∧
        Status.reserved t.status = Status.reserved s.status))

/-! ## The register window -/

/-- 20_memory.md R54, `MemRead`, in its order: WIDTH, MISALIGNED, the six registers, RESERVED. A read has no effect but its
answer: the state is the same, less the event, with the answer on the bus. -/
def Obligations.ReadFollowsMemRead : Prop :=
  ∀ (s : State) (off n : Nat) (rest : List Event), off < 32 → s.events = .read (s.cfg.windowBase + off) n :: rest →
    ∃ r, step s = .next { s with events := rest, response := r } ∧
      (n ≠ 4 → r = .busError .width) ∧
      (n = 4 → off % 4 ≠ 0 → r = .busError .misaligned) ∧
      (n = 4 → off = 0x00 → r = .data (lanesOfWord s.arg0)) ∧
      (n = 4 → off = 0x04 → r = .data (lanesOfWord s.arg1)) ∧
      (n = 4 → off = 0x08 → r = .data (lanesOfWord s.arg2)) ∧
      (n = 4 → off = 0x0C → r = .data (lanesOfWord s.cmd)) ∧
      (n = 4 → off = 0x10 → r = .data (lanesOfWord s.status)) ∧
      (n = 4 → off = 0x14 → r = .data (lanesOfWord s.result)) ∧
      (n = 4 → off = 0x18 ∨ off = 0x1C → r = .busError .reserved)

/-- 20_memory.md R55, `MemWrite`, in its order: WIDTH, MISALIGNED, the ARG registers, issue, READ_ONLY, RESERVED. A bus error
changes nothing but the answer; an ARG write changes that register only. -/
def Obligations.WriteFollowsMemWrite : Prop :=
  ∀ (s : State) (off : Nat) (lanes : List Byte) (rest : List Event), off < 32 →
    s.events = .write (s.cfg.windowBase + off) lanes :: rest →
    (lanes.length ≠ 4 → step s = .next { s with events := rest, response := .busError .width }) ∧
    (lanes.length = 4 → off % 4 ≠ 0 → step s = .next { s with events := rest, response := .busError .misaligned }) ∧
    (lanes.length = 4 → off = 0x00 →
      step s = .next { s with events := rest, response := .ack, arg0 := wordOfLanes lanes }) ∧
    (lanes.length = 4 → off = 0x04 →
      step s = .next { s with events := rest, response := .ack, arg1 := wordOfLanes lanes }) ∧
    (lanes.length = 4 → off = 0x08 →
      step s = .next { s with events := rest, response := .ack, arg2 := wordOfLanes lanes }) ∧
    (lanes.length = 4 → off = 0x0C →
      step s = issueWord (wordOfLanes lanes) { s with events := rest, response := .ack }) ∧
    (lanes.length = 4 → off = 0x10 ∨ off = 0x14 →
      step s = .next { s with events := rest, response := .busError .readOnly }) ∧
    (lanes.length = 4 → off = 0x18 ∨ off = 0x1C →
      step s = .next { s with events := rest, response := .busError .reserved })

/-- 20_memory.md R53: byte lane i carries bits [8i+7 : 8i], and four lanes carry every register value exactly once. -/
def Obligations.ByteLanesAreLittleEndian : Prop :=
  (∀ (w : Word) (i : Nat), i < 4 → (lanesOfWord w)[i]? = some (BitVec.ofNat 8 (w.toNat / 2 ^ (8 * i)))) ∧
  (∀ w : Word, wordOfLanes (lanesOfWord w) = w) ∧
  (∀ l : List Byte, l.length = 4 → lanesOfWord (wordOfLanes l) = l)

/-- 10_state.md R21: a host read of an ARG register returns the lanes of the last write, busy or idle, whatever the engine
does between the two accesses. -/
def Obligations.ArgumentReadsBackLastWrite : Prop :=
  ∀ (s : State) (r : Reg) (lanes : List Byte) (turns : Nat) (rest : List Event) (u : State),
    r = .arg0 ∨ r = .arg1 ∨ r = .arg2 → lanes.length = 4 →
    s.events = .write (regAddr s.cfg r) lanes :: (List.replicate turns .engine ++ .read (regAddr s.cfg r) 4 :: rest) →
    Host.Core.run Sys2Proof.core (turns + 2) s = .next u → u.response = .data lanes ∧ u.events = rest

/-- The model's choice (log 6, from 20_memory.md R50: such an access "is not addressed to this block"): an access whose
address lies outside the window changes nothing of the block, and the block gives no data. -/
def Obligations.AccessOutsideWindowIsIgnored : Prop :=
  ∀ (s : State) (addr : Nat) (rest : List Event), addr < s.cfg.windowBase ∨ s.cfg.windowBase + 32 ≤ addr →
    (∀ n, s.events = .read addr n :: rest → step s = .next { s with events := rest, response := .notAddressed }) ∧
    (∀ lanes, s.events = .write addr lanes :: rest → step s = .next { s with events := rest, response := .notAddressed })

/-! ## Reset -/

/-- The reset column of 10_state.md R20 and R23, and 70_reset_and_hazards.md R232. (The hidden registers' values are not
stated: they are the model's choice, log 3.) -/
def Obligations.ResetStateHasSpecValues : Prop :=
  State.reset.arg0 = 0x00000000#32 ∧ State.reset.arg1 = 0x00000000#32 ∧ State.reset.arg2 = 0x00000000#32 ∧
  State.reset.cmd = 0x00000000#32 ∧ State.reset.status = 0x00000000#32 ∧ State.reset.result = 0x00000000#32 ∧
  State.reset.phase = .idle ∧ State.reset.busy = false ∧ State.reset.done = false ∧ State.reset.ovr = false ∧
  State.reset.err = 0x0#4

/-- 70_reset_and_hazards.md R230: a reset can happen at any point, and clears every host-visible register and the phase. -/
def Obligations.ResetEventClearsTheBlock : Prop :=
  ∀ s : State, ∃ t, deliver .reset s = .next t ∧ t.arg0 = 0#32 ∧ t.arg1 = 0#32 ∧ t.arg2 = 0#32 ∧ t.cmd = 0#32 ∧
    t.status = 0x00000000#32 ∧ t.result = 0#32 ∧ t.phase = .idle ∧ t.events = s.events ∧ t.cfg = s.cfg

/-- 70_reset_and_hazards.md R233's two examples: straight after reset POWMOD completes with MOD_ZERO, and ISPRIME completes
with RESULT 0. -/
def Obligations.FirstCommandAfterReset : Prop :=
  (∃ t, step (State.reset.withFetchWord 32 0x2) = .next t ∧ t.status = 0x00000022#32 ∧ t.result = 0#32 ∧
    t.cmd = 0x00000002#32 ∧ t.phase = .idle) ∧
  (∃ t, Host.Core.run Sys2Proof.core 2 (State.reset.withFetchWord 32 0x5) = .next t ∧ t.status = 0x00000002#32 ∧
    t.result = 0#32 ∧ t.cmd = 0x00000005#32 ∧ t.phase = .idle)

/-! ## Who may change what -/

/-- 10_state.md R23: only acceptance, refusal, an operand error or a dropped write (all of them CMD writes), a completion or a
reset changes STATUS. -/
def Obligations.StatusChangesOnlyByItsEvents : Prop :=
  ∀ s t : State, step s = .next t → t.status ≠ s.status →
    (∃ rest, s.events = .reset :: rest) ∨
    (∃ e rest, s.events = e :: rest ∧ e.writesReg s.cfg .cmd = true) ∨
    ((s.events = [] ∨ ∃ rest, s.events = .engine :: rest) ∧ s.phase ≠ .idle ∧ t.phase = .idle)

/-- 10_state.md R21, R22, R25, R27: each ARG register changes only by a host write to it or a reset; CMD only by a CMD write
while idle or a reset; RESULT only by a completion, a CMD write while idle or a reset; the phase only by a CMD write while
idle, an engine step or a reset. -/
def Obligations.RegistersChangeOnlyByTheirEvents : Prop :=
  ∀ s t : State, step s = .next t → s.events.head? ≠ some .reset →
    (t.arg0 ≠ s.arg0 → ∃ e rest, s.events = e :: rest ∧ e.writesReg s.cfg .arg0 = true) ∧
    (t.arg1 ≠ s.arg1 → ∃ e rest, s.events = e :: rest ∧ e.writesReg s.cfg .arg1 = true) ∧
    (t.arg2 ≠ s.arg2 → ∃ e rest, s.events = e :: rest ∧ e.writesReg s.cfg .arg2 = true) ∧
    (t.cmd ≠ s.cmd → s.busy = false ∧ ∃ e rest, s.events = e :: rest ∧ e.writesReg s.cfg .cmd = true) ∧
    (t.result ≠ s.result →
      (s.busy = false ∧ ∃ e rest, s.events = e :: rest ∧ e.writesReg s.cfg .cmd = true) ∨
      ((s.events = [] ∨ ∃ rest, s.events = .engine :: rest) ∧ s.phase ≠ .idle ∧ t.phase = .idle)) ∧
    (t.phase ≠ s.phase →
      (s.busy = false ∧ ∃ e rest, s.events = e :: rest ∧ e.writesReg s.cfg .cmd = true) ∨
      ((s.events = [] ∨ ∃ rest, s.events = .engine :: rest) ∧ s.phase ≠ .idle))

/-- 20_memory.md R57: once the engine is idle, RESULT and STATUS stay what the completion wrote, and a later read of RESULT
returns it, as long as no CMD write and no reset comes before it. -/
def Obligations.ResultStaysUntilTheNextCommand : Prop :=
  ∀ (s : State) (es rest : List Event) (u : State), s.phase = .idle → s.events = es ++ rest →
    (∀ e, e ∈ es → e ≠ .reset ∧ e.writesReg s.cfg .cmd = false) →
    Host.Core.run Sys2Proof.core es.length s = .next u →
    u.result = s.result ∧ u.status = s.status ∧ u.phase = .idle ∧ u.events = rest ∧
    (es.getLast? = some (.read (s.cfg.windowBase + 0x14) 4) → u.response = .data (lanesOfWord s.result))

/-! ## The phase rules -/

/-- 40_modexp.md R111: PM_INIT reduces the base and 1 modulo m and goes to PM_LOOP; nothing else changes. -/
def Obligations.PmInitStep : Prop :=
  ∀ s : State, s.phase = .pmInit → s.dp.m ≠ 0#32 →
    ∃ p a : Word, engineStep s = .next { s with phase := .pmLoop, dp := { s.dp with pw := p, acc := a } } ∧
      p.toNat = s.dp.wb.toNat % s.dp.m.toNat ∧ a.toNat = 1 % s.dp.m.toNat

/-- 40_modexp.md R112 and R113: PM_LOOP runs one iteration, both multiplies on the old pw, and stays in PM_LOOP; or, with no
exponent left, completes POWMOD with acc, or hands acc to the test. -/
def Obligations.PmLoopStep : Prop :=
  ∀ s : State, s.phase = .pmLoop →
    (s.dp.ex ≠ 0#32 → s.dp.m ≠ 0#32 →
      ∃ a p x : Word, engineStep s = .next { s with dp := { s.dp with acc := a, pw := p, ex := x } } ∧
        a.toNat = (if s.dp.ex.toNat % 2 = 1 then s.dp.acc.toNat * s.dp.pw.toNat % s.dp.m.toNat else s.dp.acc.toNat) ∧
        p.toNat = s.dp.pw.toNat * s.dp.pw.toNat % s.dp.m.toNat ∧ x.toNat = s.dp.ex.toNat / 2) ∧
    (s.dp.ex = 0#32 → s.dp.op = 2#3 →
      ∃ t, engineStep s = .next t ∧ t.phase = .idle ∧ t.result = s.dp.acc ∧ t.busy = false ∧ t.done = true ∧
        t.err = 0#4 ∧ t.ovr = s.ovr) ∧
    (s.dp.ex = 0#32 → s.dp.op ≠ 2#3 →
      engineStep s = .next { s with phase := .spTest, dp := { s.dp with x := s.dp.acc } })

/-- 41_sprp.md R132, R133: for odd n ≥ 3 not a multiple of the base, SP_CHECK writes the decomposition n − 1 = d · 2^e with d
odd and 1 ≤ e ≤ 31, and sets up base^d mod n; nothing else changes. -/
def Obligations.SpCheckDecomposesCandidate : Prop :=
  ∀ s : State, s.phase = .spCheck → 3 ≤ s.dp.n.toNat → s.dp.n.toNat % 2 = 1 → s.dp.wb ≠ 0#32 →
    s.dp.n.toNat % s.dp.wb.toNat ≠ 0 →
    ∃ (d : Word) (e : BitVec 5),
      engineStep s = .next { s with phase := .pmInit, dp := { s.dp with e := e, d := d, m := s.dp.n, ex := d } } ∧
      s.dp.n.toNat - 1 = d.toNat * 2 ^ e.toNat ∧ d.toNat % 2 = 1 ∧ 1 ≤ e.toNat ∧ e.toNat ≤ 31 ∧ 1 ≤ d.toNat ∧
      d.toNat ≤ 2 ^ 31 - 1

/-- 41_sprp.md R137: SPRP completes with the test's answer; ISPRIME stops with 0 at the first failure, and goes through the
bases 2, 7, 61 in that order, completing with 1 after the third. -/
def Obligations.WitnessBasesRunInOrder : Prop :=
  ∀ s : State,
    (∀ v, s.dp.op = 3#3 → ∃ t, spReturn v s = .next t ∧ t.phase = .idle ∧ t.result = (if v then 1#32 else 0#32) ∧
      t.busy = false ∧ t.done = true ∧ t.err = 0#4 ∧ t.ovr = s.ovr) ∧
    (s.dp.op = 5#3 → ∃ t, spReturn false s = .next t ∧ t.phase = .idle ∧ t.result = 0#32 ∧
      t.busy = false ∧ t.done = true ∧ t.err = 0#4 ∧ t.ovr = s.ovr) ∧
    (s.dp.op = 5#3 → s.dp.bi = 2#2 → ∃ t, spReturn true s = .next t ∧ t.phase = .idle ∧ t.result = 1#32 ∧
      t.busy = false ∧ t.done = true ∧ t.err = 0#4 ∧ t.ovr = s.ovr) ∧
    (s.dp.op = 5#3 → s.dp.bi = 0#2 →
      spReturn true s = .next { s with phase := .spCheck, dp := { s.dp with bi := 1#2, wb := 7#32 } }) ∧
    (s.dp.op = 5#3 → s.dp.bi = 1#2 →
      spReturn true s = .next { s with phase := .spCheck, dp := { s.dp with bi := 2#2, wb := 61#32 } })

/-- 41_sprp.md R135 and R136: SP_TEST passes at x = 1 and otherwise sets the count of squarings; SP_SQ fails with no squaring
left, passes at x = n − 1 (checked before the squaring), and otherwise squares x modulo n and counts down. -/
def Obligations.SquaringLoopSteps : Prop :=
  ∀ s : State,
    (s.phase = .spTest → s.dp.x = 1#32 → engineStep s = spReturn true s) ∧
    (s.phase = .spTest → s.dp.x ≠ 1#32 → engineStep s = .next { s with phase := .spSq, dp := { s.dp with sq := s.dp.e } }) ∧
    (s.phase = .spSq → s.dp.sq = 0#5 → engineStep s = spReturn false s) ∧
    (s.phase = .spSq → s.dp.sq ≠ 0#5 → s.dp.x.toNat + 1 = s.dp.n.toNat → engineStep s = spReturn true s) ∧
    (s.phase = .spSq → s.dp.sq ≠ 0#5 → s.dp.n ≠ 0#32 → s.dp.x.toNat + 1 ≠ s.dp.n.toNat →
      ∃ (x : Word) (q : BitVec 5), engineStep s = .next { s with dp := { s.dp with x := x, sq := q } } ∧
        x.toNat = s.dp.x.toNat * s.dp.x.toNat % s.dp.n.toNat ∧ q.toNat + 1 = s.dp.sq.toNat)

/-- 42_primality.md R162: TD_PRE answers for n ≤ 2 and for even n, and otherwise starts the loop at divisor 3. -/
def Obligations.TdPreStep : Prop :=
  ∀ s : State, s.phase = .tdPre →
    (s.dp.n.toNat = 2 → engineStep s = tdReturn .prime s) ∧
    (s.dp.n.toNat < 2 → engineStep s = tdReturn .composite s) ∧
    (2 < s.dp.n.toNat → s.dp.n.toNat % 2 = 0 → engineStep s = tdReturn .composite s) ∧
    (2 < s.dp.n.toNat → s.dp.n.toNat % 2 = 1 →
      engineStep s = .next { s with phase := .tdLoop, dp := { s.dp with k := 3#6 } })

/-- 42_primality.md R165: TDIV completes with the verdict's code; ISPRIME with 1 for PRIME and 0 for COMPOSITE, and for a
SURVIVOR goes on to the first witness base, 2. -/
def Obligations.FilterReturnsItsVerdict : Prop :=
  ∀ s : State,
    (∀ v, s.dp.op = 4#3 → ∃ t, tdReturn v s = .next t ∧ t.phase = .idle ∧
      t.result = (match v with
        | .composite => 0#32
        | .prime => 1#32
        | .survivor => 2#32) ∧
      t.busy = false ∧ t.done = true ∧ t.err = 0#4 ∧ t.ovr = s.ovr) ∧
    (s.dp.op = 5#3 → ∃ t, tdReturn .prime s = .next t ∧ t.phase = .idle ∧ t.result = 1#32 ∧
      t.busy = false ∧ t.done = true ∧ t.err = 0#4 ∧ t.ovr = s.ovr) ∧
    (s.dp.op = 5#3 → ∃ t, tdReturn .composite s = .next t ∧ t.phase = .idle ∧ t.result = 0#32 ∧
      t.busy = false ∧ t.done = true ∧ t.err = 0#4 ∧ t.ovr = s.ovr) ∧
    (s.dp.op = 5#3 → tdReturn .survivor s = .next { s with phase := .spCheck, dp := { s.dp with bi := 0#2, wb := 2#32 } })

/-- 42_primality.md R163: TD_LOOP tests equality before divisibility at divisor k, stops at 61 with SURVIVOR, and otherwise
goes on to k + 2; k takes only the odd values 3 to 61. -/
def Obligations.TdLoopStep : Prop :=
  ∀ s : State, s.phase = .tdLoop → 3 ≤ s.dp.k.toNat → s.dp.k.toNat ≤ 61 → s.dp.k.toNat % 2 = 1 →
    (s.dp.n.toNat = s.dp.k.toNat → engineStep s = tdReturn .prime s) ∧
    (s.dp.n.toNat ≠ s.dp.k.toNat → s.dp.n.toNat % s.dp.k.toNat = 0 → engineStep s = tdReturn .composite s) ∧
    (s.dp.n.toNat % s.dp.k.toNat ≠ 0 → s.dp.k.toNat = 61 → engineStep s = tdReturn .survivor s) ∧
    (s.dp.n.toNat % s.dp.k.toNat ≠ 0 → s.dp.k.toNat ≠ 61 →
      ∃ k' : BitVec 6, engineStep s = .next { s with dp := { s.dp with k := k' } } ∧ k'.toNat = s.dp.k.toNat + 2 ∧
        k'.toNat ≤ 61 ∧ k'.toNat % 2 = 1)

/-! ## Invariants -/

/-- The invariant of 10_state.md R24, R27, R32 holds at reset. -/
def Obligations.ResetMeetsTheInvariant : Prop := State.reset.Inv

/-- Every step keeps the invariant of 10_state.md R24, R27, R32, whatever the event. -/
def Obligations.EveryStepKeepsTheInvariant : Prop :=
  ∀ s t : State, s.Inv → step s = .next t → t.Inv

/-- 60_exceptions.md R207: from every state the invariant allows, no step stops the machine. -/
def Obligations.NoStepFaults : Prop :=
  ∀ s : State, s.Inv → ∃ t, step s = .next t

/-! ## Laws of the functions -/

/-- 40_modexp.md R102 (a) to (e): the widened multiply is exact in 64 bits, is (a·b) mod m, commutes, may reduce its operands
first, and its truncation loses nothing. -/
def Obligations.WidenedMultiplyLaws : Prop :=
  ∀ a b m : Word, m ≠ 0#32 →
    (zext64 a * zext64 b).toNat = a.toNat * b.toNat ∧ a.toNat * b.toNat ≤ 2 ^ 64 - 2 ^ 33 + 1 ∧
    (mulmod a b m).toNat = a.toNat * b.toNat % m.toNat ∧ (mulmod a b m).toNat < m.toNat ∧
    mulmod a b m = mulmod b a m ∧
    mulmod a b m = mulmod (a % m) (b % m) m ∧
    zext64 (mulmod a b m) = (zext64 a * zext64 b) % zext64 m

/-- 40_modexp.md R115 (a) to (d). -/
def Obligations.PowmodLaws : Prop :=
  ∀ b x m : Word, m ≠ 0#32 →
    (powmod b x m).toNat < m.toNat ∧ (powmod b 0#32 m).toNat = 1 % m.toNat ∧
    (powmod b x m).toNat = b.toNat ^ x.toNat % m.toNat ∧ powmod b x m = powmod (b % m) x m

/-- 41_sprp.md R139 (a) to (c) and R131: the edge cases, and base 1. -/
def Obligations.SprpEdgeCases : Prop :=
  ∀ base n : Word,
    (n.toNat ≤ 2 → sprp base n = decide (n.toNat = 2)) ∧
    (2 < n.toNat → n.toNat % 2 = 0 → sprp base n = false) ∧
    (Nat.Prime base.toNat → base.toNat ∣ n.toNat → sprp base n = decide (n = base)) ∧
    (2 < n.toNat → n.toNat % 2 = 1 → sprp 1#32 n = false)

/-- 41_sprp.md R139 (d): for odd n ≥ 3 not a multiple of the base, the test is true exactly when base^d is 1 or some
base^(d·2^r), r < e, is n − 1, modulo n. -/
def Obligations.SprpIsTheStrongTest : Prop :=
  ∀ (base n : Word) (d e : Nat), base ≠ 0#32 → 3 ≤ n.toNat → n.toNat % 2 = 1 → n.toNat % base.toNat ≠ 0 →
    n.toNat - 1 = d * 2 ^ e → d % 2 = 1 →
    (sprp base n = true ↔
      base.toNat ^ d % n.toNat = 1 ∨ ∃ r, r < e ∧ base.toNat ^ (d * 2 ^ r) % n.toNat = n.toNat - 1)

/-- 41_sprp.md R139 (e): an odd prime passes for every base it does not divide. Base 1 is left out: by R131 `sprp(1, n)` is
false for every odd n > 2, and R139 (e) taken to the letter would contradict it (NOTES.md). -/
def Obligations.OddPrimesPassTheTest : Prop :=
  ∀ base n : Word, Nat.Prime n.toNat → n.toNat % 2 = 1 → 1 < base.toNat → base.toNat % n.toNat ≠ 0 →
    sprp base n = true

/-- 41_sprp.md R139 (f): a composite that passes base 2. -/
def Obligations.StrongPseudoprimePasses : Prop :=
  sprp 2#32 2047#32 = true ∧ 2047 = 23 * 89 ∧ sprp 2#32 25326001#32 = true ∧ sprp 7#32 25326001#32 = false ∧
  sprp 7#32 3215031751#32 = true ∧ sprp 61#32 3215031751#32 = false

/-- 42_primality.md R161: the verdict over the 30 odd divisors is the verdict over the primes up to 61. -/
def Obligations.TrialVerdictIsThePrimeVerdict : Prop :=
  ∀ n : Word,
    (trialDiv n = .prime ↔ Nat.Prime n.toNat ∧ n.toNat ≤ 61) ∧
    (trialDiv n = .survivor ↔ 61 < n.toNat ∧ ∀ p, Nat.Prime p → p ≤ 61 → ¬ p ∣ n.toNat) ∧
    (trialDiv n = .composite ↔ n.toNat < 2 ∨ ∃ p, Nat.Prime p ∧ p ≤ 61 ∧ p ∣ n.toNat ∧ p ≠ n.toNat)

/-- 42_primality.md R169: an answer "not prime" is right, with no published result. -/
def Obligations.NotPrimeAnswersAreRight : Prop :=
  ∀ n : Word, isPrime n = false → ¬ Nat.Prime n.toNat

/-- 42_primality.md R169: ISPRIME is primality on all of u32 exactly when no composite survivor passes all three bases. The
right side is the published result the spec does not assume. -/
def Obligations.PrimalityIffNoStrongPseudoprime : Prop :=
  (∀ n : Word, isPrime n = true ↔ Nat.Prime n.toNat) ↔
  ∀ n : Word, trialDiv n = .survivor → sprp 2#32 n = true → sprp 7#32 n = true → sprp 61#32 n = true → Nat.Prime n.toNat

/-- 42_primality.md R168 (a) to (d), (g): named values. -/
def Obligations.IsPrimeNamedValues : Prop :=
  isPrime 0#32 = false ∧ isPrime 1#32 = false ∧ isPrime 2#32 = true ∧ isPrime 3#32 = true ∧ isPrime 59#32 = true ∧
  isPrime 61#32 = true ∧ isPrime 9#32 = false ∧ isPrime 15#32 = false ∧ isPrime 49#32 = false ∧
  isPrime 67#32 = true ∧ isPrime 4489#32 = false ∧ isPrime 4294967291#32 = true ∧ isPrime 4294967295#32 = false

/-- 42_primality.md R168 (e): for every n in [0, 10000) ISPRIME's function is primality. -/
def Obligations.IsPrimeBelowTenThousand : Prop :=
  ∀ n : Word, n.toNat < 10000 → (isPrime n = true ↔ Nat.Prime n.toNat)
end

