-- ==== Sys2Proof/Laws/Arith.lean ====
section
/-! SUPPORT. The arithmetic primitives as natural-number facts: the widened multiply (40_modexp.md R102), the exponentiation
loop (R110, R115), the decomposition (41_sprp.md R133) and the bit length (40_modexp.md R115(e)). -/

namespace Sys2Proof.Machine

/-! ## Words as numbers -/

theorem toNat_pos_of_ne_zero {m : Word} (h : m ≠ 0#32) : 0 < m.toNat := by
  rcases Nat.eq_zero_or_pos m.toNat with h0 | h0
  · exact absurd (BitVec.eq_of_toNat_eq (by simpa using h0)) h
  · exact h0

theorem lowBit_iff (v : Word) : lowBit v = true ↔ v.toNat % 2 = 1 := by
  simp only [lowBit, BitVec.getLsbD, Nat.testBit_zero, decide_eq_true_eq]

theorem lowBit_false_iff (v : Word) : lowBit v = false ↔ v.toNat % 2 = 0 := by
  rw [← Bool.not_eq_true, lowBit_iff]; omega

theorem shiftRight_one_toNat (v : Word) : (v >>> 1).toNat = v.toNat / 2 := by
  simp [BitVec.toNat_ushiftRight, Nat.shiftRight_eq_div_pow]

theorem umod_lt {a m : Word} (h : m ≠ 0#32) : a % m < m := by
  rw [BitVec.lt_def, BitVec.toNat_umod]; exact Nat.mod_lt _ (toNat_pos_of_ne_zero h)

/-! ## The widened multiply (00_scope.md R14) -/

theorem mulmod_toNat {a b m : Word} (h : m ≠ 0#32) : (mulmod a b m).toNat = a.toNat * b.toNat % m.toNat := by
  have hm := toNat_pos_of_ne_zero h
  have hab : a.toNat * b.toNat < 2 ^ 64 :=
    lt_of_le_of_lt (Nat.mul_le_mul (Nat.le_of_lt_succ (by have := a.isLt; omega : a.toNat < 2 ^ 32 - 1 + 1))
      (Nat.le_of_lt_succ (by have := b.isLt; omega : b.toNat < 2 ^ 32 - 1 + 1))) (by norm_num)
  have hr : a.toNat * b.toNat % m.toNat < 2 ^ 32 := lt_trans (Nat.mod_lt _ hm) m.isLt
  have h64 : ∀ v : Word, v.toNat % 18446744073709551616 = v.toNat := fun v =>
    Nat.mod_eq_of_lt (lt_trans v.isLt (by norm_num))
  simp only [mulmod, trunc32, zext64, BitVec.toNat_setWidth, BitVec.toNat_umod, BitVec.toNat_mul]
  norm_num [h64]
  rw [Nat.mod_eq_of_lt (a := a.toNat * b.toNat) (by simpa using hab)]
  exact Nat.mod_eq_of_lt (by simpa using hr)

theorem mulmod_lt {a b m : Word} (h : m ≠ 0#32) : mulmod a b m < m := by
  rw [BitVec.lt_def, mulmod_toNat h]; exact Nat.mod_lt _ (toNat_pos_of_ne_zero h)

/-! ## The exponentiation loop (40_modexp.md R110) -/

theorem powLoop_zero_ex (m acc pw : Word) (f : Nat) : powLoop m f acc pw 0#32 = acc := by
  cases f <;> simp [powLoop]

theorem powLoop_toNat {m : Word} (hm : m ≠ 0#32) :
    ∀ (f : Nat) (acc pw ex : Word), ex.toNat < 2 ^ f → acc < m →
      (powLoop m f acc pw ex).toNat = acc.toNat * pw.toNat ^ ex.toNat % m.toNat := by
  intro f
  induction f with
  | zero =>
    intro acc pw ex he ha
    have h0 : ex.toNat = 0 := by simpa using he
    rw [BitVec.lt_def] at ha
    simp [powLoop, h0, Nat.mod_eq_of_lt ha]
  | succ f ih =>
    intro acc pw ex he ha
    by_cases hz : ex = 0#32
    · subst hz; rw [powLoop_zero_ex]; rw [BitVec.lt_def] at ha; simp [Nat.mod_eq_of_lt ha]
    · have hstep : powLoop m (f + 1) acc pw ex =
          powLoop m f (if lowBit ex then mulmod acc pw m else acc) (mulmod pw pw m) (ex >>> 1) := by
        simp [powLoop, hz]
      have hacc : (if lowBit ex then mulmod acc pw m else acc) < m := by
        split
        · exact mulmod_lt hm
        · exact ha
      rw [hstep, ih _ _ _ (by rw [shiftRight_one_toNat]; omega) hacc, shiftRight_one_toNat, mulmod_toNat hm]
      have hsq : (pw.toNat * pw.toNat % m.toNat) ^ (ex.toNat / 2) ≡ pw.toNat ^ (2 * (ex.toNat / 2)) [MOD m.toNat] := by
        rw [pow_mul, pow_two]; exact (Nat.mod_modEq _ _).pow _
      by_cases hb : lowBit ex = true
      · have h1 := (lowBit_iff ex).1 hb
        rw [if_pos hb, mulmod_toNat hm]
        have he2 : ex.toNat = 2 * (ex.toNat / 2) + 1 := by omega
        have : acc.toNat * pw.toNat % m.toNat * (pw.toNat * pw.toNat % m.toNat) ^ (ex.toNat / 2) ≡
            acc.toNat * pw.toNat * pw.toNat ^ (2 * (ex.toNat / 2)) [MOD m.toNat] :=
          (Nat.mod_modEq _ _).mul hsq
        rw [this, mul_assoc, ← pow_succ', ← he2]
      · have h0 := (lowBit_false_iff ex).1 (by simpa using hb)
        rw [if_neg hb]
        have he2 : 2 * (ex.toNat / 2) = ex.toNat := by omega
        have := hsq.mul_left acc.toNat
        rw [he2] at this
        exact this

theorem one_mod_lt {m : Word} (hm : m ≠ 0#32) : 1#32 % m < m := umod_lt hm

/-- `powmod(b, x, m) = b^x mod m` (40_modexp.md R115(c)). -/
theorem powmod_toNat {b x m : Word} (hm : m ≠ 0#32) : (powmod b x m).toNat = b.toNat ^ x.toNat % m.toNat := by
  rw [powmod, powLoop_toNat hm 32 _ _ _ x.isLt (one_mod_lt hm), BitVec.toNat_umod, BitVec.toNat_umod]
  have h1 : (1#32 : Word).toNat = 1 := rfl
  rw [h1]
  have := (Nat.mod_modEq 1 m.toNat).mul ((Nat.mod_modEq b.toNat m.toNat).pow x.toNat)
  rw [one_mul] at this
  exact this

/-- More rounds of fuel than the exponent needs change nothing. -/
theorem powLoop_fuel {m : Word} (hm : m ≠ 0#32) {f g : Nat} {acc pw ex : Word} (hf : ex.toNat < 2 ^ f)
    (hg : ex.toNat < 2 ^ g) (ha : acc < m) : powLoop m f acc pw ex = powLoop m g acc pw ex :=
  BitVec.eq_of_toNat_eq (by rw [powLoop_toNat hm f _ _ _ hf ha, powLoop_toNat hm g _ _ _ hg ha])

/-- One iteration of the loop, at full fuel (40_modexp.md R112). -/
theorem powLoop_step {m acc pw ex : Word} (hm : m ≠ 0#32) (ha : acc < m) (hz : ex ≠ 0#32) :
    powLoop m 32 acc pw ex =
      powLoop m 32 (if lowBit ex then mulmod acc pw m else acc) (mulmod pw pw m) (ex >>> 1) := by
  have hacc : (if lowBit ex then mulmod acc pw m else acc) < m := by
    split
    · exact mulmod_lt hm
    · exact ha
  have hlt : (ex >>> 1).toNat < 2 ^ 31 := by rw [shiftRight_one_toNat]; have := ex.isLt; omega
  rw [powLoop_fuel hm (f := 32) (g := 31) (lt_trans hlt (by norm_num)) hlt hacc]
  simp [powLoop, hz]

/-! ## The decomposition n − 1 = d · 2^e (41_sprp.md R133) -/

theorem ctzFrom_spec (v : Word) : ∀ (f i : Nat), (∃ j, i ≤ j ∧ j < i + f ∧ v.getLsbD j = true) →
    v.getLsbD (ctzFrom v f i) = true ∧ i ≤ ctzFrom v f i ∧ ctzFrom v f i < i + f ∧
      ∀ j, i ≤ j → j < ctzFrom v f i → v.getLsbD j = false := by
  intro f
  induction f with
  | zero => rintro i ⟨j, h1, h2, -⟩; omega
  | succ f ih =>
    rintro i ⟨j, h1, h2, h3⟩
    by_cases hi : v.getLsbD i = true
    · have h : ctzFrom v (f + 1) i = i := by simp [ctzFrom, hi]
      rw [h]; exact ⟨hi, le_refl _, by omega, fun j a b => by omega⟩
    · have h : ctzFrom v (f + 1) i = ctzFrom v f (i + 1) := by simp [ctzFrom, hi]
      have hij : i ≠ j := fun e => hi (e ▸ h3)
      obtain ⟨a, b, c, d⟩ := ih (i + 1) ⟨j, by omega, by omega, h3⟩
      rw [h]
      refine ⟨a, by omega, by omega, fun k hk1 hk2 => ?_⟩
      rcases Nat.lt_or_ge i k with h' | h'
      · exact d k h' hk2
      · have : k = i := by omega
        subst this; simpa using hi

/-- `ctz(v)` for v ≠ 0: the shifted-out part is odd, and nothing is lost by the shift. -/
theorem ctz_spec {v : Word} (hv : v ≠ 0#32) :
    ctz v < 32 ∧ (v >>> ctz v).toNat * 2 ^ ctz v = v.toNat ∧ lowBit (v >>> ctz v) = true := by
  have hex : ∃ j, 0 ≤ j ∧ j < 0 + 32 ∧ v.getLsbD j = true := by
    by_contra hcon
    apply hv
    apply BitVec.eq_of_getLsbD_eq
    intro i hi
    by_contra hne
    exact hcon ⟨i, Nat.zero_le _, by omega, by simpa using hne⟩
  obtain ⟨h1, -, h3, h4⟩ := ctzFrom_spec v 32 0 hex
  have hlt : ctz v < 32 := by simpa [ctz] using h3
  have hmod : v.toNat % 2 ^ ctz v = 0 := by
    apply Nat.eq_of_testBit_eq
    intro i
    rw [Nat.testBit_mod_two_pow]
    by_cases hi : i < ctz v
    · have := h4 i (Nat.zero_le _) hi
      simp only [BitVec.getLsbD] at this
      simp [this]
    · simp [hi]
  refine ⟨hlt, ?_, ?_⟩
  · rw [BitVec.toNat_ushiftRight, Nat.shiftRight_eq_div_pow]
    exact Nat.div_mul_cancel (Nat.dvd_of_mod_eq_zero hmod)
  · simpa [lowBit, ctz] using h1

/-! ## The bit length (40_modexp.md R115(e)) -/

@[simp] theorem bitlen_zero : bitlen 0#32 = 0 := by simp [bitlen]

theorem bitlen_shift {v : Word} (h : v ≠ 0#32) : bitlen (v >>> 1) + 1 = bitlen v := by
  have hp := toNat_pos_of_ne_zero h
  by_cases h1 : v >>> 1 = 0#32
  · have h2 : v.toNat / 2 = 0 := by rw [← shiftRight_one_toNat, h1]; rfl
    have : v.toNat = 1 := by omega
    simp [bitlen, h, h1, this, Nat.log2_def]
  · have h2 := toNat_pos_of_ne_zero h1
    rw [shiftRight_one_toNat] at h2
    simp only [bitlen, h, h1, if_false, shiftRight_one_toNat]
    rw [Nat.log2_def v.toNat, if_pos (by omega)]
    omega

theorem bitlen_le {v : Word} {k : Nat} (h : v.toNat < 2 ^ k) : bitlen v ≤ k := by
  unfold bitlen
  split
  · exact Nat.zero_le _
  · rename_i hv
    have := (Nat.log2_lt (toNat_pos_of_ne_zero hv).ne').2 h
    omega

theorem bitlen_mono {a b : Word} (h : a ≤ b) : bitlen a ≤ bitlen b := by
  by_cases hb : b = 0#32
  · subst hb
    have : a = 0#32 := by simpa using h
    simp [this]
  · apply bitlen_le
    have : b.toNat < 2 ^ bitlen b := by
      have := Nat.lt_log2_self (n := b.toNat)
      simpa [bitlen, hb, Nat.add_comm] using this
    exact lt_of_le_of_lt (BitVec.le_def.1 h) this

/-- `bitlen(d) + e ≤ 32` (41_sprp.md R140). -/
theorem bitlen_add_le {n d : Word} {e : Nat} (h : n.toNat - 1 = d.toNat * 2 ^ e) (he : e ≤ 31) :
    bitlen d + e ≤ 32 := by
  have hn : d.toNat * 2 ^ e < 2 ^ 32 := by have := n.isLt; omega
  have hsplit : (2 : Nat) ^ 32 = 2 ^ (32 - e) * 2 ^ e := by rw [← pow_add]; congr 1; omega
  rw [hsplit] at hn
  have := bitlen_le (Nat.lt_of_mul_lt_mul_right hn)
  omega

end Sys2Proof.Machine
end

