-- ==== Sys2Proof/Laws/Decode.lean ====
section
/-! SUPPORT. The byte lanes as bits (20_memory.md R53). -/

namespace Sys2Proof

theorem length_lanesOfWord (w : Word) : (lanesOfWord w).length = 4 := rfl

/-- Putting the four lanes of a word together gives the word. -/
@[simp] theorem wordOfLanes_lanesOfWord (w : Word) : wordOfLanes (lanesOfWord w) = w := by
  apply BitVec.eq_of_getLsbD_eq
  intro i hi
  simp only [wordOfLanes, lanesOfWord, List.getD_cons_zero, List.getD_cons_succ, BitVec.getLsbD_append,
    BitVec.getLsbD_extractLsb']
  interval_cases i <;> rfl

/-- The lanes of a word put together from four lanes are those lanes. -/
theorem lanesOfWord_wordOfLanes (a b c d : Byte) : lanesOfWord (wordOfLanes [a, b, c, d]) = [a, b, c, d] := by
  simp only [lanesOfWord, wordOfLanes, List.getD_cons_zero, List.getD_cons_succ, List.cons.injEq, and_true]
  refine ⟨?_, ?_, ?_, ?_⟩ <;> apply BitVec.eq_of_getLsbD_eq <;> intro i hi <;>
    simp only [BitVec.getLsbD_append, BitVec.getLsbD_extractLsb'] <;> interval_cases i <;> rfl

end Sys2Proof
end

