-- ==== Sys2Proof/Laws/State.lean ====
section
/-! SUPPORT. What each shared operation leaves in each field of State: one lemma per field per operation, so that no proof
unfolds a record update. -/

namespace Sys2Proof.Machine

/-! `respond` -/

@[simp] theorem respond_arg0 (r : Response) (s : State) : (respond r s).arg0 = s.arg0 := rfl
@[simp] theorem respond_arg1 (r : Response) (s : State) : (respond r s).arg1 = s.arg1 := rfl
@[simp] theorem respond_arg2 (r : Response) (s : State) : (respond r s).arg2 = s.arg2 := rfl
@[simp] theorem respond_cmd (r : Response) (s : State) : (respond r s).cmd = s.cmd := rfl
@[simp] theorem respond_status (r : Response) (s : State) : (respond r s).status = s.status := rfl
@[simp] theorem respond_result (r : Response) (s : State) : (respond r s).result = s.result := rfl
@[simp] theorem respond_phase (r : Response) (s : State) : (respond r s).phase = s.phase := rfl
@[simp] theorem respond_dp (r : Response) (s : State) : (respond r s).dp = s.dp := rfl
@[simp] theorem respond_cfg (r : Response) (s : State) : (respond r s).cfg = s.cfg := rfl
@[simp] theorem respond_events (r : Response) (s : State) : (respond r s).events = s.events := rfl
@[simp] theorem respond_response (r : Response) (s : State) : (respond r s).response = r := rfl
@[simp] theorem respond_freeCtr (r : Response) (s : State) : (respond r s).freeCtr = s.freeCtr := rfl

/-! `complete` -/

@[simp] theorem complete_arg0 (v : Word) (s : State) : (complete v s).arg0 = s.arg0 := rfl
@[simp] theorem complete_arg1 (v : Word) (s : State) : (complete v s).arg1 = s.arg1 := rfl
@[simp] theorem complete_arg2 (v : Word) (s : State) : (complete v s).arg2 = s.arg2 := rfl
@[simp] theorem complete_cmd (v : Word) (s : State) : (complete v s).cmd = s.cmd := rfl
@[simp] theorem complete_status (v : Word) (s : State) : (complete v s).status = Status.completed s.status := rfl
@[simp] theorem complete_result (v : Word) (s : State) : (complete v s).result = v := rfl
@[simp] theorem complete_phase (v : Word) (s : State) : (complete v s).phase = .idle := rfl
@[simp] theorem complete_dp (v : Word) (s : State) : (complete v s).dp = Datapath.free s.freeCtr := rfl
@[simp] theorem complete_cfg (v : Word) (s : State) : (complete v s).cfg = s.cfg := rfl
@[simp] theorem complete_events (v : Word) (s : State) : (complete v s).events = s.events := rfl
@[simp] theorem complete_response (v : Word) (s : State) : (complete v s).response = s.response := rfl
@[simp] theorem complete_freeCtr (v : Word) (s : State) : (complete v s).freeCtr = s.freeCtr + 1 := rfl

/-! `cmdError` -/

@[simp] theorem cmdError_arg0 (c : ErrCode) (s : State) : (cmdError c s).arg0 = s.arg0 := rfl
@[simp] theorem cmdError_arg1 (c : ErrCode) (s : State) : (cmdError c s).arg1 = s.arg1 := rfl
@[simp] theorem cmdError_arg2 (c : ErrCode) (s : State) : (cmdError c s).arg2 = s.arg2 := rfl
@[simp] theorem cmdError_cmd (c : ErrCode) (s : State) : (cmdError c s).cmd = s.cmd := rfl
@[simp] theorem cmdError_status (c : ErrCode) (s : State) : (cmdError c s).status = Status.failed c := rfl
@[simp] theorem cmdError_result (c : ErrCode) (s : State) : (cmdError c s).result = 0#32 := rfl
@[simp] theorem cmdError_phase (c : ErrCode) (s : State) : (cmdError c s).phase = s.phase := rfl
@[simp] theorem cmdError_dp (c : ErrCode) (s : State) : (cmdError c s).dp = s.dp := rfl
@[simp] theorem cmdError_cfg (c : ErrCode) (s : State) : (cmdError c s).cfg = s.cfg := rfl
@[simp] theorem cmdError_events (c : ErrCode) (s : State) : (cmdError c s).events = s.events := rfl
@[simp] theorem cmdError_response (c : ErrCode) (s : State) : (cmdError c s).response = s.response := rfl
@[simp] theorem cmdError_freeCtr (c : ErrCode) (s : State) : (cmdError c s).freeCtr = s.freeCtr := rfl

/-! `dropCommand` -/

@[simp] theorem dropCommand_arg0 (s : State) : (dropCommand s).arg0 = s.arg0 := rfl
@[simp] theorem dropCommand_arg1 (s : State) : (dropCommand s).arg1 = s.arg1 := rfl
@[simp] theorem dropCommand_arg2 (s : State) : (dropCommand s).arg2 = s.arg2 := rfl
@[simp] theorem dropCommand_cmd (s : State) : (dropCommand s).cmd = s.cmd := rfl
@[simp] theorem dropCommand_status (s : State) : (dropCommand s).status = Status.overrun s.status := rfl
@[simp] theorem dropCommand_result (s : State) : (dropCommand s).result = s.result := rfl
@[simp] theorem dropCommand_phase (s : State) : (dropCommand s).phase = s.phase := rfl
@[simp] theorem dropCommand_dp (s : State) : (dropCommand s).dp = s.dp := rfl
@[simp] theorem dropCommand_cfg (s : State) : (dropCommand s).cfg = s.cfg := rfl
@[simp] theorem dropCommand_events (s : State) : (dropCommand s).events = s.events := rfl
@[simp] theorem dropCommand_response (s : State) : (dropCommand s).response = s.response := rfl
@[simp] theorem dropCommand_freeCtr (s : State) : (dropCommand s).freeCtr = s.freeCtr := rfl

/-! `latch` -/

@[simp] theorem latch_arg0 (i : Instr) (p : Phase) (d : Datapath) (s : State) : (latch i p d s).arg0 = s.arg0 := rfl
@[simp] theorem latch_arg1 (i : Instr) (p : Phase) (d : Datapath) (s : State) : (latch i p d s).arg1 = s.arg1 := rfl
@[simp] theorem latch_arg2 (i : Instr) (p : Phase) (d : Datapath) (s : State) : (latch i p d s).arg2 = s.arg2 := rfl
@[simp] theorem latch_cmd (i : Instr) (p : Phase) (d : Datapath) (s : State) : (latch i p d s).cmd = s.cmd := rfl
@[simp] theorem latch_status (i : Instr) (p : Phase) (d : Datapath) (s : State) : (latch i p d s).status = Status.accepted := rfl
@[simp] theorem latch_result (i : Instr) (p : Phase) (d : Datapath) (s : State) : (latch i p d s).result = s.result := rfl
@[simp] theorem latch_phase (i : Instr) (p : Phase) (d : Datapath) (s : State) : (latch i p d s).phase = p := rfl
@[simp] theorem latch_dp (i : Instr) (p : Phase) (d : Datapath) (s : State) : (latch i p d s).dp = { d with op := opOf i } := rfl
@[simp] theorem latch_cfg (i : Instr) (p : Phase) (d : Datapath) (s : State) : (latch i p d s).cfg = s.cfg := rfl
@[simp] theorem latch_events (i : Instr) (p : Phase) (d : Datapath) (s : State) : (latch i p d s).events = s.events := rfl
@[simp] theorem latch_response (i : Instr) (p : Phase) (d : Datapath) (s : State) : (latch i p d s).response = s.response := rfl
@[simp] theorem latch_freeCtr (i : Instr) (p : Phase) (d : Datapath) (s : State) : (latch i p d s).freeCtr = s.freeCtr := rfl

/-! `resetBlock` -/

@[simp] theorem resetBlock_arg0 (s : State) : (resetBlock s).arg0 = 0#32 := rfl
@[simp] theorem resetBlock_arg1 (s : State) : (resetBlock s).arg1 = 0#32 := rfl
@[simp] theorem resetBlock_arg2 (s : State) : (resetBlock s).arg2 = 0#32 := rfl
@[simp] theorem resetBlock_cmd (s : State) : (resetBlock s).cmd = 0#32 := rfl
@[simp] theorem resetBlock_status (s : State) : (resetBlock s).status = Status.pack false false false .none := rfl
@[simp] theorem resetBlock_result (s : State) : (resetBlock s).result = 0#32 := rfl
@[simp] theorem resetBlock_phase (s : State) : (resetBlock s).phase = .idle := rfl
@[simp] theorem resetBlock_dp (s : State) : (resetBlock s).dp = Datapath.free s.freeCtr := rfl
@[simp] theorem resetBlock_cfg (s : State) : (resetBlock s).cfg = s.cfg := rfl
@[simp] theorem resetBlock_events (s : State) : (resetBlock s).events = s.events := rfl
@[simp] theorem resetBlock_response (s : State) : (resetBlock s).response = s.response := rfl
@[simp] theorem resetBlock_freeCtr (s : State) : (resetBlock s).freeCtr = s.freeCtr + 1 := rfl

/-! `spSetup` -/

@[simp] theorem spSetup_arg0 (s : State) : (spSetup s).arg0 = s.arg0 := rfl
@[simp] theorem spSetup_arg1 (s : State) : (spSetup s).arg1 = s.arg1 := rfl
@[simp] theorem spSetup_arg2 (s : State) : (spSetup s).arg2 = s.arg2 := rfl
@[simp] theorem spSetup_cmd (s : State) : (spSetup s).cmd = s.cmd := rfl
@[simp] theorem spSetup_status (s : State) : (spSetup s).status = s.status := rfl
@[simp] theorem spSetup_result (s : State) : (spSetup s).result = s.result := rfl
@[simp] theorem spSetup_phase (s : State) : (spSetup s).phase = .pmInit := rfl
@[simp] theorem spSetup_cfg (s : State) : (spSetup s).cfg = s.cfg := rfl
@[simp] theorem spSetup_events (s : State) : (spSetup s).events = s.events := rfl
@[simp] theorem spSetup_response (s : State) : (spSetup s).response = s.response := rfl
@[simp] theorem spSetup_freeCtr (s : State) : (spSetup s).freeCtr = s.freeCtr := rfl

end Sys2Proof.Machine
end

