-- ==== Sys2Proof/Laws/Status.lean ====
section
/-! SUPPORT. The fields of STATUS after each event that writes it (10_state.md R24), so that no proof unfolds a bit mask. -/

namespace Sys2Proof.Machine

/-! The whole words (the values 95_test_vectors.md writes). -/

theorem Status.accepted_eq : Status.accepted = 0x00000001#32 := by decide
theorem Status.failed_illegalCmd : Status.failed .illegalCmd = 0x00000012#32 := by decide
theorem Status.failed_modZero : Status.failed .modZero = 0x00000022#32 := by decide
theorem Status.failed_baseZero : Status.failed .baseZero = 0x00000032#32 := by decide
@[simp] theorem Status.pack_reset : Status.pack false false false .none = 0x00000000#32 := by decide

/-- Completion as one mask: BUSY and ERR cleared, DONE set, every other bit kept. -/
theorem Status.completed_eq (w : Word) : Status.completed w = (w &&& 0xFFFFFF0C#32) ||| 2#32 := by
  apply BitVec.eq_of_getLsbD_eq
  intro i hi
  interval_cases i <;> simp [Status.completed, Status.setErr, Status.setFlag, ErrCode.code]

/-- A dropped write as one mask: OVR set, every other bit kept. -/
theorem Status.overrun_eq (w : Word) : Status.overrun w = w ||| 4#32 := by
  simp [Status.overrun, Status.setFlag]

@[simp] theorem Status.busy_completed (w : Word) : Status.busy (Status.completed w) = false := by
  simp [Status.completed_eq, Status.busy]
@[simp] theorem Status.done_completed (w : Word) : Status.done (Status.completed w) = true := by
  simp [Status.completed_eq, Status.done]
@[simp] theorem Status.ovr_completed (w : Word) : Status.ovr (Status.completed w) = Status.ovr w := by
  simp [Status.completed_eq, Status.ovr]
@[simp] theorem Status.err_completed (w : Word) : Status.err (Status.completed w) = 0#4 := by
  apply BitVec.eq_of_getLsbD_eq
  intro i hi
  interval_cases i <;> simp [Status.completed_eq, Status.err]
@[simp] theorem Status.reserved_completed (w : Word) :
    Status.reserved (Status.completed w) = Status.reserved w := by
  apply BitVec.eq_of_getLsbD_eq
  intro i hi
  interval_cases i <;> simp [Status.completed_eq, Status.reserved]

@[simp] theorem Status.busy_overrun (w : Word) : Status.busy (Status.overrun w) = Status.busy w := by
  simp [Status.overrun_eq, Status.busy]
@[simp] theorem Status.done_overrun (w : Word) : Status.done (Status.overrun w) = Status.done w := by
  simp [Status.overrun_eq, Status.done]
@[simp] theorem Status.ovr_overrun (w : Word) : Status.ovr (Status.overrun w) = true := by
  simp [Status.overrun_eq, Status.ovr]
@[simp] theorem Status.err_overrun (w : Word) : Status.err (Status.overrun w) = Status.err w := by
  apply BitVec.eq_of_getLsbD_eq
  intro i hi
  interval_cases i <;> simp [Status.overrun_eq, Status.err]
@[simp] theorem Status.reserved_overrun (w : Word) :
    Status.reserved (Status.overrun w) = Status.reserved w := by
  apply BitVec.eq_of_getLsbD_eq
  intro i hi
  interval_cases i <;> simp [Status.overrun_eq, Status.reserved]

/-! The fields of the whole words. -/

@[simp] theorem Status.busy_accepted : Status.busy Status.accepted = true := by decide
@[simp] theorem Status.done_accepted : Status.done Status.accepted = false := by decide
@[simp] theorem Status.ovr_accepted : Status.ovr Status.accepted = false := by decide
@[simp] theorem Status.err_accepted : Status.err Status.accepted = 0#4 := by decide
@[simp] theorem Status.reserved_accepted : Status.reserved Status.accepted = 0#32 := by decide
@[simp] theorem Status.busy_zero : Status.busy 0#32 = false := by decide
@[simp] theorem Status.done_zero : Status.done 0#32 = false := by decide
@[simp] theorem Status.ovr_zero : Status.ovr 0#32 = false := by decide
@[simp] theorem Status.err_zero : Status.err 0#32 = 0#4 := by decide
@[simp] theorem Status.reserved_zero : Status.reserved 0#32 = 0#32 := by decide
@[simp] theorem Status.busy_failed (c : ErrCode) : Status.busy (Status.failed c) = false := by cases c <;> decide
@[simp] theorem Status.done_failed (c : ErrCode) : Status.done (Status.failed c) = true := by cases c <;> decide
@[simp] theorem Status.ovr_failed (c : ErrCode) : Status.ovr (Status.failed c) = false := by cases c <;> decide
@[simp] theorem Status.err_failed (c : ErrCode) : Status.err (Status.failed c) = c.code := by cases c <;> decide
@[simp] theorem Status.reserved_failed (c : ErrCode) : Status.reserved (Status.failed c) = 0#32 := by
  cases c <;> decide

@[simp] theorem Status.completed_accepted : Status.completed Status.accepted = 0x00000002#32 := by decide

/-- No code above 3 is ever written (60_exceptions.md R205). -/
theorem ErrCode.code_le (c : ErrCode) : c.code ≤ 3#4 := by cases c <;> decide

end Sys2Proof.Machine
end

