-- ==== Sys2Proof/Laws/Engine.lean ====
section
/-! SUPPORT. What one engine step can do, said once: the frame of every phase rule, and phase by phase that the rule keeps the
datapath's invariant (10_state.md R32), the value the command will answer (40_modexp.md R114, 41_sprp.md R138, 42_primality.md
R166) and makes progress (70_reset_and_hazards.md R246). -/

namespace Sys2Proof.Machine

/-- The two ways a phase rule goes on: a new datapath and a phase that is not IDLE, or a completion. -/
abbrev State.MovesTo (s t : State) : Prop :=
  (∃ d p, p ≠ .idle ∧ t = { s with dp := d, phase := p }) ∨ ∃ v, t = complete v s

theorem enterWitness_moves {i : Nat} {s t : State} (h : enterWitness i s = .next t) : s.MovesTo t := by
  unfold enterWitness at h
  split at h
  · cases h; exact .inl ⟨_, _, by decide, rfl⟩
  · cases h

theorem spReturn_moves {v : Bool} {s t : State} (h : spReturn v s = .next t) : s.MovesTo t := by
  unfold spReturn at h
  repeat' split at h
  · cases h; exact .inr ⟨_, rfl⟩
  · cases h; exact .inr ⟨_, rfl⟩
  · cases h; exact .inr ⟨_, rfl⟩
  · exact enterWitness_moves h

theorem tdReturn_moves {v : Verdict} {s t : State} (h : tdReturn v s = .next t) : s.MovesTo t := by
  unfold tdReturn at h
  repeat' split at h
  · cases h; exact .inr ⟨_, rfl⟩
  · cases h; exact .inr ⟨_, rfl⟩
  · cases h; exact .inr ⟨_, rfl⟩
  · exact enterWitness_moves h

theorem pmReturn_moves (s : State) : s.MovesTo (pmReturn s) := by
  unfold pmReturn
  split
  · exact .inr ⟨_, rfl⟩
  · exact .inl ⟨_, _, by decide, rfl⟩

/-- Everything an engine step can do to the fields it does not compute with: outside IDLE it writes only the datapath and the
phase, or completes. -/
theorem engineStep_moves {s t : State} (hp : s.phase ≠ .idle) (h : engineStep s = .next t) : s.MovesTo t := by
  unfold engineStep at h
  split at h
  · rename_i hi; exact absurd hi hp
  · unfold stepMm at h
    split at h <;> cases h
    exact .inr ⟨_, rfl⟩
  · unfold stepPmInit at h
    split at h <;> cases h
    exact .inl ⟨_, _, by decide, rfl⟩
  · unfold stepPmLoop at h
    split at h
    · cases h; exact pmReturn_moves s
    split at h
    · cases h
    · cases h; exact .inl ⟨_, s.phase, hp, rfl⟩
  · unfold stepSpCheck at h
    repeat' split at h
    · exact spReturn_moves h
    · exact spReturn_moves h
    · cases h
    · exact spReturn_moves h
    · cases h; exact .inl ⟨_, _, by decide, rfl⟩
  · unfold stepSpTest at h
    split at h
    · exact spReturn_moves h
    · cases h; exact .inl ⟨_, _, by decide, rfl⟩
  · unfold stepSpSq at h
    repeat' split at h
    · exact spReturn_moves h
    · cases h
    · exact spReturn_moves h
    · cases h; exact .inl ⟨_, s.phase, hp, rfl⟩
  · unfold stepTdPre at h
    repeat' split at h
    · exact tdReturn_moves h
    · exact tdReturn_moves h
    · exact tdReturn_moves h
    · cases h; exact .inl ⟨_, _, by decide, rfl⟩
  · unfold stepTdLoop at h
    repeat' split at h
    · exact tdReturn_moves h
    · cases h
    · exact tdReturn_moves h
    · exact tdReturn_moves h
    · cases h
    · cases h; exact .inl ⟨_, s.phase, hp, rfl⟩

/-! ## One phase rule from a datapath that meets its invariant -/

/-- A phase rule answers well: a next state that either goes on in another phase with the invariant kept, the same answer to
come and fewer steps left, or completes with the answer that was to come. -/
abbrev State.Advances (s : State) (r : Result) : Prop :=
  (∃ d p, r = .next { s with dp := d, phase := p } ∧ p ≠ .idle ∧ d.Ok p ∧
    d.pending p = s.dp.pending s.phase ∧ d.stepsLeft p < s.dp.stepsLeft s.phase) ∨
  r = .next (complete (s.dp.pending s.phase) s)

/-- W[i] as a number, for the index of a survivor's current base. -/
theorem witness_lt {i : Nat} {b : Word} (h : Config.witnessBases[i]? = some b) : i < 3 := by
  have := (List.getElem?_eq_some_iff.1 h).1
  simpa [Config.witnessBases] using this

theorem witness_cases {i : Nat} {b : Word} (h : Config.witnessBases[i]? = some b) :
    (i = 0 ∧ b = 2#32) ∨ (i = 1 ∧ b = 7#32) ∨ (i = 2 ∧ b = 61#32) := by
  have hi := witness_lt h
  interval_cases i <;> simp_all [Config.witnessBases]

theorem opOf_sprp_ne_isprime : opOf .sprp ≠ opOf .isprime := by decide
theorem opOf_powmod_ne_sprp : opOf .powmod ≠ opOf .sprp := by decide
theorem opOf_powmod_ne_isprime : opOf .powmod ≠ opOf .isprime := by decide
theorem opOf_tdiv_ne_isprime : opOf .tdiv ≠ opOf .isprime := by decide

/-- Where the rule is not POWMOD's, the command is one that runs the test. -/
theorem Datapath.Testing.not_powmod {d : Datapath} (h : d.Testing) : d.op ≠ opOf .powmod := by
  rcases h.1 with h | h <;> rw [h] <;> decide

/-- `sp_return(v)` from a phase whose answer to come is what follows the test (41_sprp.md R137). -/
theorem spReturn_advances {s : State} {v : Bool} (ht : s.dp.Testing)
    (hv : s.dp.pending s.phase = s.dp.afterTest v) (hs : s.dp.basesLeft < s.dp.stepsLeft s.phase) :
    s.Advances (spReturn v s) := by
  obtain ⟨hop, hiw⟩ := ht
  unfold spReturn
  by_cases hsp : s.dp.op = opOf .sprp
  · right; rw [if_pos hsp, hv]; simp [Datapath.afterTest, hsp]
  · have hip : s.dp.op = opOf .isprime := hop.resolve_left hsp
    obtain ⟨hsurv, hw⟩ := hiw hip
    rw [if_neg hsp]
    cases v with
    | false => right; rw [if_pos rfl, hv]; simp [Datapath.afterTest, hsp, boolWord]
    | true =>
      rw [if_neg (by decide)]
      have hlt := witness_lt hw
      by_cases h2 : s.dp.bi = 2#2
      · right; rw [if_pos h2, hv]; simp [Datapath.afterTest, hsp, h2, boolWord, Config.witnessBases]
      · left
        have hbi : s.dp.bi.toNat ≠ 2 := fun h => h2 (BitVec.eq_of_toNat_eq (by simpa using h))
        have hcase : s.dp.bi.toNat = 0 ∨ s.dp.bi.toNat = 1 := by omega
        rw [if_neg h2]
        refine ⟨{ s.dp with bi := BitVec.ofNat 2 (s.dp.bi.toNat + 1),
                            wb := if s.dp.bi.toNat = 0 then 7#32 else 61#32 }, .spCheck, ?_, by decide, ?_, ?_, ?_⟩
        · rcases hcase with h | h <;> simp [enterWitness, h, Config.witnessBases]
        · refine ⟨⟨.inr hip, fun _ => ⟨hsurv, ?_⟩⟩, fun h0 => ?_⟩
          · rcases hcase with h | h <;> simp [h, Config.witnessBases]
          · rcases hcase with h | h <;> simp [h] at h0
        · rw [hv]
          rcases hcase with h | h <;>
            simp [Datapath.pending, Datapath.afterTest, hsp, h, boolWord, Config.witnessBases]
        · refine lt_of_le_of_lt ?_ hs
          rcases hcase with h | h <;> simp [Datapath.stepsLeft, Datapath.basesLeft, hip, h]

/-- `td_return(v)` from a phase whose answer to come is what follows the filter (42_primality.md R165). -/
theorem tdReturn_advances {s : State} {v : Verdict} (ht : s.dp.Filtering) (hn : v = .survivor → trialDiv s.dp.n = .survivor)
    (hv : s.dp.pending s.phase = s.dp.afterFilter v)
    (hs : s.dp.op = opOf .isprime → 111 < s.dp.stepsLeft s.phase) : s.Advances (tdReturn v s) := by
  unfold tdReturn
  by_cases htd : s.dp.op = opOf .tdiv
  · right; rw [if_pos htd, hv]; simp [Datapath.afterFilter, htd]
  · have hip : s.dp.op = opOf .isprime := ht.resolve_left htd
    rw [if_neg htd]
    cases v with
    | prime => right; simp [hv, Datapath.afterFilter, htd]
    | composite => right; simp [hv, Datapath.afterFilter, htd]
    | survivor =>
      left
      refine ⟨{ s.dp with bi := 0#2, wb := 2#32 }, .spCheck, ?_, by decide, ?_, ?_, ?_⟩
      · simp [enterWitness, Config.witnessBases]
      · exact ⟨⟨.inr hip, fun _ => ⟨hn rfl, rfl⟩⟩, fun h0 => absurd h0 (show (2#32 : Word) ≠ 0#32 by decide)⟩
      · rw [hv]
        have hns : s.dp.op ≠ opOf .sprp := by rw [hip]; decide
        simp [Datapath.pending, Datapath.afterTest, Datapath.afterFilter, htd, hns, Config.witnessBases]
      · have := hs hip
        simpa [Datapath.stepsLeft, Datapath.basesLeft, hip] using this

theorem stepMm_advances {s : State} (hp : s.phase = .mm) (h : s.dp.Ok .mm) : s.Advances (stepMm s) := by
  right; simp [stepMm, h.2, hp, Datapath.pending]

theorem stepPmInit_advances {s : State} (hp : s.phase = .pmInit) (h : s.dp.Ok .pmInit) : s.Advances (stepPmInit s) := by
  obtain ⟨hm, hc⟩ := h
  left
  refine ⟨{ s.dp with pw := s.dp.wb % s.dp.m, acc := 1#32 % s.dp.m }, .pmLoop, by simp [stepPmInit, hm], by decide, ?_, ?_, ?_⟩
  · refine ⟨umod_lt hm, umod_lt hm, hc.imp_right fun ⟨a, b, c, d⟩ => ⟨a, b, c, by simp [d]⟩⟩
  · simp [hp, Datapath.pending, powmod, Datapath.afterPow, Datapath.afterTest]
  · simp [hp, Datapath.stepsLeft, Datapath.basesLeft]

theorem ne_zero_of_lt {a m : Word} (h : a < m) : m ≠ 0#32 := by
  rintro rfl; simp [BitVec.lt_def] at h

theorem stepPmLoop_advances {s : State} (hp : s.phase = .pmLoop) (h : s.dp.Ok .pmLoop) : s.Advances (stepPmLoop s) := by
  obtain ⟨ha, hw, hc⟩ := h
  have hm := ne_zero_of_lt ha
  unfold stepPmLoop
  by_cases hz : s.dp.ex = 0#32
  · rw [if_pos hz]
    have hpend : s.dp.pending s.phase = s.dp.afterPow s.dp.acc := by
      rw [hp]; simp only [Datapath.pending]; rw [hz, powLoop_zero_ex]
    unfold pmReturn
    by_cases hop : s.dp.op = opOf .powmod
    · right; rw [if_pos hop, hpend]; simp [Datapath.afterPow, hop]
    · left
      obtain ⟨ht, hd, hmn, -⟩ := hc.resolve_left hop
      refine ⟨{ s.dp with x := s.dp.acc }, .spTest, by simp [hop], by decide, ⟨ht, hd, by rw [← hmn]; exact ha⟩, ?_, ?_⟩
      · rw [hpend]; simp [Datapath.pending, Datapath.afterPow, hop, Datapath.afterTest]
      · simp [hp, Datapath.stepsLeft, Datapath.basesLeft, hop, hz]
  · left
    refine ⟨{ s.dp with
        acc := if lowBit s.dp.ex then mulmod s.dp.acc s.dp.pw s.dp.m else s.dp.acc,
        pw := mulmod s.dp.pw s.dp.pw s.dp.m,
        ex := s.dp.ex >>> 1 }, .pmLoop, ?_, by decide, ⟨?_, mulmod_lt hm, ?_⟩, ?_, ?_⟩
    · rw [if_neg hz, if_neg hm]; congr 1; cases s; cases hp; rfl
    · dsimp only
      split
      · exact mulmod_lt hm
      · exact ha
    · refine hc.imp_right fun ⟨a, b, c, d⟩ => ⟨a, b, c, ?_⟩
      show s.dp.ex >>> 1 ≤ s.dp.d
      rw [BitVec.le_def, shiftRight_one_toNat]
      have := BitVec.le_def.1 d
      omega
    · rw [hp]
      simp only [Datapath.pending]
      rw [powLoop_step hm ha hz]
      rfl
    · have := bitlen_shift hz
      simp only [hp, Datapath.stepsLeft, Datapath.basesLeft]
      omega

/-- The decomposition SP_CHECK writes (41_sprp.md R132, R133). -/
theorem spSetup_decomposed {s : State} (h3 : ¬ s.dp.n ≤ 2#32) (ho : lowBit s.dp.n = true) :
    (spSetup s).dp.Decomposed ∧ (spSetup s).dp.e.toNat = ctz (s.dp.n - 1#32) := by
  have h2 : 2 < s.dp.n.toNat := by simpa [BitVec.le_def] using h3
  have hsub : (s.dp.n - 1#32).toNat = s.dp.n.toNat - 1 := by
    rw [BitVec.toNat_sub_of_le (by rw [BitVec.le_def]; simp; omega)]; rfl
  have hv : s.dp.n - 1#32 ≠ 0#32 := by
    intro h; rw [h] at hsub; simp at hsub; omega
  obtain ⟨hlt, hmul, hodd⟩ := ctz_spec hv
  have he : (BitVec.ofNat 5 (ctz (s.dp.n - 1#32))).toNat = ctz (s.dp.n - 1#32) := by
    rw [BitVec.toNat_ofNat]; exact Nat.mod_eq_of_lt hlt
  have h1 : 1 ≤ ctz (s.dp.n - 1#32) := by
    by_contra hc
    have h0 : ctz (s.dp.n - 1#32) = 0 := by omega
    rw [h0] at hmul hodd
    rw [lowBit_iff] at ho hodd
    simp only [BitVec.ushiftRight_zero] at hodd
    omega
  refine ⟨⟨?_, ho, hodd, ?_, ?_⟩, he⟩
  · show 3#32 ≤ s.dp.n
    rw [BitVec.le_def]; simp; omega
  · show 1 ≤ (BitVec.ofNat 5 (ctz (s.dp.n - 1#32))).toNat
    rw [he]; exact h1
  · show s.dp.n.toNat - 1 = ((s.dp.n - 1#32) >>> ctz (s.dp.n - 1#32)).toNat * 2 ^ (BitVec.ofNat 5 (ctz (s.dp.n - 1#32))).toNat
    rw [he, hmul, hsub]

theorem stepSpCheck_advances {s : State} (hp : s.phase = .spCheck) (h : s.dp.Ok .spCheck) : s.Advances (stepSpCheck s) := by
  obtain ⟨ht, hwb⟩ := h
  have hsl : s.dp.basesLeft < s.dp.stepsLeft s.phase := by rw [hp]; simp [Datapath.stepsLeft]
  unfold stepSpCheck
  by_cases h2 : s.dp.n ≤ 2#32
  · rw [if_pos h2]; exact spReturn_advances ht (by rw [hp]; simp [Datapath.pending, sprp, h2]) hsl
  rw [if_neg h2]
  by_cases ho : lowBit s.dp.n = false
  · rw [if_pos ho]; exact spReturn_advances ht (by rw [hp]; simp [Datapath.pending, sprp, h2, ho]) hsl
  rw [if_neg ho]
  have hw0 : s.dp.wb ≠ 0#32 := fun h0 => (hwb h0).elim h2 ho
  rw [if_neg hw0]
  by_cases hd : s.dp.n % s.dp.wb = 0#32
  · rw [if_pos hd]; exact spReturn_advances ht (by rw [hp]; simp [Datapath.pending, sprp, h2, ho, hd]) hsl
  rw [if_neg hd]
  have hot : lowBit s.dp.n = true := by simpa using ho
  obtain ⟨hdec, he⟩ := spSetup_decomposed h2 hot
  have hm0 : s.dp.n ≠ 0#32 := by rintro h0; exact h2 (by simp [h0])
  left
  refine ⟨(spSetup s).dp, .pmInit, rfl, by decide, ⟨hm0, .inr ⟨ht, hdec, rfl, rfl⟩⟩, ?_, ?_⟩
  · rw [hp]
    have hnp : s.dp.op ≠ opOf .powmod := Datapath.Testing.not_powmod ht
    simp only [Datapath.pending, Datapath.afterPow]
    rw [if_neg (show (spSetup s).dp.op ≠ opOf .powmod from hnp), he]
    have hsprp : sprp s.dp.wb s.dp.n = witnessTest s.dp.n (ctz (s.dp.n - 1#32))
        (powmod s.dp.wb ((s.dp.n - 1#32) >>> ctz (s.dp.n - 1#32)) s.dp.n) := by
      simp [sprp, h2, hot, hd]
    rw [hsprp]; rfl
  · have hb := bitlen_add_le hdec.2.2.2.2 (by have := (spSetup s).dp.e.isLt; omega)
    have hnp : (spSetup s).dp.op ≠ opOf .powmod := Datapath.Testing.not_powmod ht
    have hex : (spSetup s).dp.ex = (spSetup s).dp.d := rfl
    have hbl : (spSetup s).dp.basesLeft = s.dp.basesLeft := rfl
    rw [hp]
    simp only [Datapath.stepsLeft, if_neg hnp, hex, hbl]
    omega

theorem stepSpTest_advances {s : State} (hp : s.phase = .spTest) (h : s.dp.Ok .spTest) : s.Advances (stepSpTest s) := by
  obtain ⟨ht, hd, hx⟩ := h
  unfold stepSpTest
  by_cases h1 : s.dp.x = 1#32
  · rw [if_pos h1]
    refine spReturn_advances ht (by rw [hp]; simp [Datapath.pending, witnessTest, h1]) ?_
    rw [hp]; simp [Datapath.stepsLeft]
  · rw [if_neg h1]
    left
    refine ⟨_, _, rfl, by decide, ⟨ht, hd, hx, BitVec.le_refl _⟩, ?_, ?_⟩
    · rw [hp]; simp [Datapath.pending, witnessTest, h1, Datapath.afterTest]
    · rw [hp]; simp [Datapath.stepsLeft, Datapath.basesLeft]

theorem stepSpSq_advances {s : State} (hp : s.phase = .spSq) (h : s.dp.Ok .spSq) : s.Advances (stepSpSq s) := by
  obtain ⟨ht, hd, hx, hsq⟩ := h
  unfold stepSpSq
  by_cases h0 : s.dp.sq = 0#5
  · rw [if_pos h0]
    refine spReturn_advances ht (by rw [hp]; simp [Datapath.pending, h0, squareLoop]) ?_
    rw [hp]; simp [Datapath.stepsLeft]
  rw [if_neg h0]
  have hn := ne_zero_of_lt hx
  rw [if_neg hn]
  have hpos : s.dp.sq.toNat ≠ 0 := fun h => h0 (BitVec.eq_of_toNat_eq (by simpa using h))
  have hsub : (s.dp.sq - 1#5).toNat = s.dp.sq.toNat - 1 := by
    rw [BitVec.toNat_sub_of_le (by rw [BitVec.le_def]; simp; omega)]; rfl
  have hsucc : s.dp.sq.toNat = (s.dp.sq - 1#5).toNat + 1 := by omega
  have hloop : ∀ x, squareLoop s.dp.n s.dp.sq.toNat x =
      if x = s.dp.n - 1#32 then true else squareLoop s.dp.n (s.dp.sq - 1#5).toNat (mulmod x x s.dp.n) := by
    intro x; rw [hsucc]; rfl
  by_cases hxn : s.dp.x = s.dp.n - 1#32
  · rw [if_pos hxn]
    refine spReturn_advances ht (by rw [hp]; simp only [Datapath.pending]; rw [hloop, if_pos hxn]) ?_
    rw [hp]; simp only [Datapath.stepsLeft]; omega
  · rw [if_neg hxn]
    left
    refine ⟨{ s.dp with x := mulmod s.dp.x s.dp.x s.dp.n, sq := s.dp.sq - 1#5 }, .spSq, ?_, by decide,
      ⟨ht, hd, mulmod_lt hn, ?_⟩, ?_, ?_⟩
    · congr 1; cases s; cases hp; rfl
    · have := BitVec.le_def.1 hsq
      rw [BitVec.le_def]; show (s.dp.sq - 1#5).toNat ≤ s.dp.e.toNat; omega
    · rw [hp]; simp only [Datapath.pending]; rw [hloop, if_neg hxn]; rfl
    · rw [hp]; simp only [Datapath.stepsLeft]
      show (s.dp.sq - 1#5).toNat + 1 + s.dp.basesLeft < _
      omega

theorem stepTdPre_advances {s : State} (hp : s.phase = .tdPre) (h : s.dp.Ok .tdPre) : s.Advances (stepTdPre s) := by
  have hsl : s.dp.op = opOf .isprime → 111 < s.dp.stepsLeft s.phase := by
    intro hi; rw [hp]; simp [Datapath.stepsLeft, hi]
  unfold stepTdPre
  by_cases h2 : s.dp.n ≤ 2#32
  · rw [if_pos h2]
    refine tdReturn_advances h ?_ (by rw [hp]; simp [Datapath.pending, trialDiv, h2]) hsl
    intro hv; split at hv <;> cases hv
  rw [if_neg h2]
  by_cases ho : lowBit s.dp.n = false
  · rw [if_pos ho]
    exact tdReturn_advances h (fun hv => by cases hv) (by rw [hp]; simp [Datapath.pending, trialDiv, h2, ho]) hsl
  rw [if_neg ho]
  left
  have hot : lowBit s.dp.n = true := by simpa using ho
  have htd : trialDiv s.dp.n = trialLoop s.dp.n Config.trialDivisors := by simp [trialDiv, h2, hot]
  refine ⟨_, _, rfl, by decide, ⟨h, by simpa using h2, hot, show (3#6).getLsbD 0 = true by decide,
    show 3#6 ≤ 3#6 by decide, show 3#6 ≤ 61#6 by decide, ?_⟩, ?_, ?_⟩
  · simpa using htd
  · rw [hp]; simp [Datapath.pending, htd, Datapath.afterFilter]
  · rw [hp]; simp [Datapath.stepsLeft]

/-- The divisors still to try start with the current one (42_primality.md R163). -/
theorem trialDivisors_drop {k : BitVec 6} (ho : k.getLsbD 0 = true) (h3 : 3#6 ≤ k) (h61 : k ≤ 61#6) :
    Config.trialDivisors.drop ((k.toNat - 3) / 2) =
      k.setWidth 32 :: Config.trialDivisors.drop ((k.toNat - 3) / 2 + 1) := by
  revert k; decide

theorem stepTdLoop_advances {s : State} (hp : s.phase = .tdLoop) (h : s.dp.Ok .tdLoop) : s.Advances (stepTdLoop s) := by
  obtain ⟨hf, hn, hno, hko, h3, h61, htd⟩ := h
  have hdrop := trialDivisors_drop hko h3 h61
  have hsl : s.dp.op = opOf .isprime → 111 < s.dp.stepsLeft s.phase := by
    intro hi; rw [hp]; simp [Datapath.stepsLeft, hi]
  have hloop : trialLoop s.dp.n (Config.trialDivisors.drop ((s.dp.k.toNat - 3) / 2)) =
      if s.dp.n = s.dp.k.setWidth 32 then .prime
      else if s.dp.n % s.dp.k.setWidth 32 = 0#32 then .composite
      else trialLoop s.dp.n (Config.trialDivisors.drop ((s.dp.k.toNat - 3) / 2 + 1)) := by
    rw [hdrop]; rfl
  have hpend : s.dp.pending s.phase =
      s.dp.afterFilter (trialLoop s.dp.n (Config.trialDivisors.drop ((s.dp.k.toNat - 3) / 2))) := by rw [hp]; rfl
  have hk3 : 3 ≤ s.dp.k.toNat := by simpa [BitVec.le_def] using h3
  have hk61 : s.dp.k.toNat ≤ 61 := by simpa [BitVec.le_def] using h61
  unfold stepTdLoop
  by_cases he : s.dp.n = s.dp.k.setWidth 32
  · rw [if_pos he]
    exact tdReturn_advances hf (fun hv => by cases hv) (by rw [hpend, hloop, if_pos he]) hsl
  rw [if_neg he, if_neg (by rintro h0; rw [h0] at hk3; simp at hk3)]
  by_cases hd : s.dp.n % s.dp.k.setWidth 32 = 0#32
  · rw [if_pos hd]
    exact tdReturn_advances hf (fun hv => by cases hv) (by rw [hpend, hloop, if_neg he, if_pos hd]) hsl
  rw [if_neg hd]
  rw [if_neg he, if_neg hd] at hloop
  by_cases hl : s.dp.k = Config.tdBound
  · rw [if_pos hl]
    have hend : trialLoop s.dp.n (Config.trialDivisors.drop ((s.dp.k.toNat - 3) / 2)) = .survivor := by
      rw [hloop, hl]; rfl
    exact tdReturn_advances hf (fun _ => by rw [htd, hend]) (by rw [hpend, hend]) hsl
  have hne : s.dp.k.toNat ≠ 61 := fun h => hl (BitVec.eq_of_toNat_eq (by simpa [Config.tdBound] using h))
  have hodd : s.dp.k.toNat % 2 = 1 := by
    simpa only [BitVec.getLsbD, Nat.testBit_zero, decide_eq_true_eq] using hko
  have hk2 : (s.dp.k + 2#6).toNat = s.dp.k.toNat + 2 := by
    rw [BitVec.toNat_add]; simp; omega
  rw [if_neg hl, if_neg (by omega)]
  left
  have hidx : (s.dp.k.toNat + 2 - 3) / 2 = (s.dp.k.toNat - 3) / 2 + 1 := by omega
  refine ⟨{ s.dp with k := s.dp.k + 2#6 }, .tdLoop, ?_, by decide, ⟨hf, hn, hno, ?_, ?_, ?_, ?_⟩, ?_, ?_⟩
  · congr 1; cases s; cases hp; rfl
  · show (s.dp.k + 2#6).getLsbD 0 = true
    simp only [BitVec.getLsbD, Nat.testBit_zero, decide_eq_true_eq, hk2]; omega
  · rw [BitVec.le_def]; show 3 ≤ (s.dp.k + 2#6).toNat; omega
  · rw [BitVec.le_def]; show (s.dp.k + 2#6).toNat ≤ 61; omega
  · show trialDiv s.dp.n = trialLoop s.dp.n (Config.trialDivisors.drop (((s.dp.k + 2#6).toNat - 3) / 2))
    rw [htd, hloop, hk2, hidx]
  · rw [hpend, hloop]
    show s.dp.afterFilter (trialLoop s.dp.n (Config.trialDivisors.drop (((s.dp.k + 2#6).toNat - 3) / 2))) = _
    rw [hk2, hidx]
  · rw [hp]
    simp only [Datapath.stepsLeft, hk2]
    omega

end Sys2Proof.Machine
end

