-- ==== Sys2Proof/Laws/Bus.lean ====
section
/-! SUPPORT. What an issue, a host access and a step can do, said once (20_memory.md R54, R55; 30_encoding.md R75). -/

namespace Sys2Proof.Machine

@[simp] theorem offsetOf_lt (r : Reg) : offsetOf r < 32 := by cases r <;> decide

@[simp] theorem windowOffset_regAddr (c : Config) (r : Reg) : windowOffset c (regAddr c r) = some (offsetOf r) := by
  have h := offsetOf_lt r
  unfold windowOffset regAddr Config.windowSize
  rw [if_pos (by omega)]; simp

theorem windowOffset_add (c : Config) {off : Nat} (h : off < 32) : windowOffset c (c.windowBase + off) = some off := by
  unfold windowOffset Config.windowSize
  rw [if_pos (by omega)]; simp

/-- An access in the window is at WINDOW_BASE plus its offset. -/
theorem windowOffset_some {c : Config} {addr off : Nat} (h : windowOffset c addr = some off) :
    addr = c.windowBase + off := by
  unfold windowOffset at h
  split at h
  · cases h; omega
  · cases h

@[simp] theorem checkAccess_offsetOf (r : Reg) : checkAccess (offsetOf r) 4 = .ok r := by cases r <;> decide

/-- An access that reaches a register is a 4-byte access at that register's offset. -/
theorem checkAccess_ok {off size : Nat} {r : Reg} (h : checkAccess off size = .ok r) : size = 4 ∧ off = offsetOf r := by
  unfold checkAccess at h
  split at h
  · cases h
  split at h
  · cases h
  rename_i hs _
  refine ⟨by omega, ?_⟩
  unfold regAt at h
  split at h <;> rename_i hm <;> cases h
  repeat' split at hm
  all_goals first | cases hm; simp_all [offsetOf] | cases hm

/-- A read changes nothing but the bus's answer. -/
theorem hostRead_eq_respond (addr size : Nat) (s : State) : ∃ r, hostRead addr size s = respond r s := by
  unfold hostRead
  repeat' split
  all_goals exact ⟨_, rfl⟩

/-- Issue in a state that is not busy: an operand error, or a latch (30_encoding.md R76, R77). -/
theorem exec_idle {s : State} (i : Instr) (h : s.busy = false) :
    (s.operandError i = true ∧ ∃ c, c ≠ .none ∧ exec i s = .next (cmdError c { s with cmd := encode i })) ∨
    (s.operandError i = false ∧ exec i s = .next (latchOf i { s with cmd := encode i })) := by
  cases i
  · by_cases hz : s.arg2 = 0#32
    · exact .inl ⟨by simp [State.operandError, hz], .modZero, by decide, by simp [exec, execMulmod, issue, h, modZero, hz]⟩
    · exact .inr ⟨by simp [State.operandError, hz], by simp [exec, execMulmod, issue, h, modZero, hz, latchOf]⟩
  · by_cases hz : s.arg2 = 0#32
    · exact .inl ⟨by simp [State.operandError, hz], .modZero, by decide, by simp [exec, execPowmod, issue, h, modZero, hz]⟩
    · exact .inr ⟨by simp [State.operandError, hz], by simp [exec, execPowmod, issue, h, modZero, hz, latchOf]⟩
  · by_cases hz : s.operandError .sprp = true
    · exact .inl ⟨hz, .baseZero, by decide, by
        simp only [State.operandError] at hz
        simp only [exec, execSprp, issue, h, baseZero, Bool.false_eq_true, if_false, hz, if_true]⟩
    · refine .inr ⟨by simpa using hz, ?_⟩
      simp only [State.operandError] at hz
      simp only [exec, execSprp, issue, h, baseZero, Bool.false_eq_true, if_false, hz, latchOf]
  · exact .inr ⟨rfl, by simp [exec, execTdiv, issue, h, latchOf]⟩
  · exact .inr ⟨rfl, by simp [exec, execIsprime, issue, h, latchOf]⟩

/-- Issue in a busy state: the word is dropped, whatever it is (70_reset_and_hazards.md R241). -/
theorem exec_busy {s : State} (i : Instr) (h : s.busy = true) : exec i s = .next (dropCommand s) := by
  cases i <;> simp [exec, execMulmod, execPowmod, execSprp, execTdiv, execIsprime, issue, h]

/-- The decoder answers a command only for that command's word (30_encoding.md R71). -/
theorem encode_of_decode {w : Word} {i : Instr} (h : decode w = .ok i) : w = encode i := by
  have hw : w = rsvField w ++ opcField w := by
    apply BitVec.eq_of_getLsbD_eq
    intro j hj
    simp only [rsvField, opcField, BitVec.getLsbD_append, BitVec.getLsbD_extractLsb']
    interval_cases j <;> rfl
  unfold decode at h
  split at h
  · rename_i hr
    split at h
    · rename_i j hj
      cases h
      rw [hw, hr]
      unfold instrOfOpc at hj
      repeat' split at hj
      all_goals first | (cases hj; rename_i ho; rw [ho]; rfl) | cases hj
    · cases h
  · cases h

/-- Everything a CMD write can do: dropped; an error report; or a latch (30_encoding.md R75). -/
theorem issueWord_cases (w : Word) (s : State) :
    (s.busy = true ∧ issueWord w s = .next (dropCommand s)) ∨
    (s.busy = false ∧ ∃ c, c ≠ .none ∧ issueWord w s = .next (cmdError c { s with cmd := w })) ∨
    (s.busy = false ∧ ∃ i, w = encode i ∧ s.operandError i = false ∧
      issueWord w s = .next (latchOf i { s with cmd := w })) := by
  unfold issueWord
  split
  · rename_i i hd
    have hw := encode_of_decode hd
    cases hb : s.busy
    · rcases exec_idle i hb with ⟨-, c, hc, he⟩ | ⟨ho, he⟩
      · exact .inr (.inl ⟨rfl, c, hc, by rw [he, hw]⟩)
      · exact .inr (.inr ⟨rfl, i, hw, ho, by rw [he, hw]⟩)
    · exact .inl ⟨rfl, exec_busy i hb⟩
  · cases hb : s.busy
    · exact .inr (.inl ⟨rfl, .illegalCmd, by decide, by simp [issue, hb]⟩)
    · exact .inl ⟨rfl, by simp [issue, hb]⟩

/-- Everything a host write can do: only an answer on the bus; an ARG register; or a CMD write (20_memory.md R55). -/
theorem hostWrite_cases (addr : Nat) (lanes : List Byte) (s : State) :
    (∃ r, hostWrite addr lanes s = .next (respond r s)) ∨
    (∃ r, lanes.length = 4 ∧ addr = regAddr s.cfg r ∧
      ((r = .arg0 ∧ hostWrite addr lanes s = .next { respond .ack s with arg0 := wordOfLanes lanes }) ∨
       (r = .arg1 ∧ hostWrite addr lanes s = .next { respond .ack s with arg1 := wordOfLanes lanes }) ∨
       (r = .arg2 ∧ hostWrite addr lanes s = .next { respond .ack s with arg2 := wordOfLanes lanes }) ∨
       (r = .cmd ∧ hostWrite addr lanes s = issueWord (wordOfLanes lanes) (respond .ack s)))) := by
  unfold hostWrite
  split
  · exact .inl ⟨_, rfl⟩
  · rename_i off hoff
    have ha := windowOffset_some hoff
    split
    · exact .inl ⟨_, rfl⟩
    all_goals first
      | exact .inl ⟨_, rfl⟩
      | (rename_i hok
         obtain ⟨h4, ho⟩ := checkAccess_ok hok
         refine .inr ⟨_, h4, by rw [ha, ho]; rfl, ?_⟩
         simp)

/-- The latch of a command leaves everything but the datapath, the phase and STATUS (30_encoding.md R77). -/
theorem latchOf_eq (i : Instr) (s : State) :
    ∃ d p, p ≠ .idle ∧ d.op = opOf i ∧ latchOf i s = { s with dp := d, phase := p, status := Status.accepted } := by
  cases i <;> exact ⟨_, _, by decide, rfl, rfl⟩

/-- A latch meets the datapath's invariant of its first phase, when there is no operand error (10_state.md R32(a),
41_sprp.md R134). -/
theorem latchOf_ok {i : Instr} {s : State} (h : s.operandError i = false) :
    (latchOf i s).dp.Ok (latchOf i s).phase := by
  cases i
  · exact ⟨rfl, show s.arg2 ≠ 0#32 by simpa [State.operandError] using h⟩
  · exact ⟨show s.arg2 ≠ 0#32 by simpa [State.operandError] using h, .inl rfl⟩
  · refine ⟨⟨.inl rfl, fun h => absurd h (show opOf .sprp ≠ opOf .isprime by decide)⟩, fun h0 => ?_⟩
    have h0 : s.arg0 = 0#32 := h0
    simp [State.operandError, h0] at h
    show s.arg1 ≤ 2#32 ∨ lowBit s.arg1 = false
    by_cases h2 : 2#32 < s.arg1
    · exact .inr (h h2)
    · exact .inl (by simpa using h2)
  · exact .inl rfl
  · exact .inr rfl

/-! ## One event -/

/-- Everything a host access can do, by the register it writes (20_memory.md R54, R55). -/
theorem deliver_access_cases {e : Event} (s : State) (h : e.isAccess = true) :
    (∃ r, deliver e s = .next (respond r s)) ∨
    (∃ v, e.writesReg s.cfg .arg0 = true ∧ deliver e s = .next { respond .ack s with arg0 := v }) ∨
    (∃ v, e.writesReg s.cfg .arg1 = true ∧ deliver e s = .next { respond .ack s with arg1 := v }) ∨
    (∃ v, e.writesReg s.cfg .arg2 = true ∧ deliver e s = .next { respond .ack s with arg2 := v }) ∨
    (∃ w, e.writesReg s.cfg .cmd = true ∧ deliver e s = issueWord w (respond .ack s)) := by
  cases e with
  | read a n => obtain ⟨r, hr⟩ := hostRead_eq_respond a n s; exact .inl ⟨r, by simp [deliver, hr]⟩
  | write a l =>
    rcases hostWrite_cases a l s with ⟨r, h⟩ | ⟨r, h4, ha, h⟩
    · exact .inl ⟨r, h⟩
    · have hw : ∀ r', r = r' → Event.writesReg s.cfg r' (.write a l) = true := by
        rintro _ rfl; simp [Event.writesReg, ha, h4]
      rcases h with ⟨h', h⟩ | ⟨h', h⟩ | ⟨h', h⟩ | ⟨h', h⟩
      · exact .inr (.inl ⟨_, hw _ h', h⟩)
      · exact .inr (.inr (.inl ⟨_, hw _ h', h⟩))
      · exact .inr (.inr (.inr (.inl ⟨_, hw _ h', h⟩)))
      · exact .inr (.inr (.inr (.inr ⟨_, hw _ h', h⟩)))
  | engine => cases h
  | reset => cases h

/-- One engine step from a datapath that meets its invariant, whatever the phase. -/
theorem engineStep_advances {s : State} (h : s.dp.Ok s.phase) (hp : s.phase ≠ .idle) : s.Advances (engineStep s) := by
  unfold engineStep
  split <;> rename_i hph <;> rw [hph] at h
  · exact absurd hph hp
  · exact stepMm_advances hph h
  · exact stepPmInit_advances hph h
  · exact stepPmLoop_advances hph h
  · exact stepSpCheck_advances hph h
  · exact stepSpTest_advances hph h
  · exact stepSpSq_advances hph h
  · exact stepTdPre_advances hph h
  · exact stepTdLoop_advances hph h

/-! ## One step, by the event it takes -/

theorem step_nil {s : State} (h : s.events = []) : step s = engineStep s := by simp [step, nextEvent, h, deliver]

theorem step_cons {s : State} {e : Event} {rest : List Event} (h : s.events = e :: rest) :
    step s = deliver e { s with events := rest } := by simp [step, nextEvent, h]

/-- Everything a step can do, guards included: the engine's turn (which passes in IDLE); a reset; or a host access, which only
answers on the bus, writes one ARG register, or is a CMD write: dropped while busy, else an error report or a latch. -/
theorem step_cases {s t : State} (h : step s = .next t) :
    ((s.events = [] ∨ ∃ rest, s.events = .engine :: rest) ∧
      ((s.phase = .idle ∧ ∃ ev, t = { s with events := ev }) ∨
       (s.phase ≠ .idle ∧ ∃ ev, State.MovesTo { s with events := ev } t))) ∨
    (∃ rest, s.events = .reset :: rest ∧ t = resetBlock { s with events := rest }) ∨
    (∃ e rest, s.events = e :: rest ∧ e.isAccess = true ∧
      ((∃ r, t = { s with events := rest, response := r }) ∨
       (∃ v, e.writesReg s.cfg .arg0 = true ∧ t = { s with events := rest, response := .ack, arg0 := v }) ∨
       (∃ v, e.writesReg s.cfg .arg1 = true ∧ t = { s with events := rest, response := .ack, arg1 := v }) ∨
       (∃ v, e.writesReg s.cfg .arg2 = true ∧ t = { s with events := rest, response := .ack, arg2 := v }) ∨
       (e.writesReg s.cfg .cmd = true ∧
         ((s.busy = true ∧ t = dropCommand { s with events := rest, response := .ack }) ∨
          (s.busy = false ∧ ∃ w c, t = cmdError c { s with events := rest, response := .ack, cmd := w }) ∨
          (s.busy = false ∧ ∃ w d p, p ≠ .idle ∧
            t = { s with events := rest, response := .ack, cmd := w, dp := d, phase := p,
                         status := Status.accepted }))))) := by
  have heng : ∀ ev, engineStep { s with events := ev } = .next t →
      ((s.phase = .idle ∧ ∃ ev, t = { s with events := ev }) ∨
       (s.phase ≠ .idle ∧ ∃ ev, State.MovesTo { s with events := ev } t)) := by
    intro ev h
    by_cases hp : s.phase = .idle
    · simp [engineStep, hp] at h; subst h; exact .inl ⟨hp, ev, by rw [hp]⟩
    · exact .inr ⟨hp, ev, engineStep_moves (s := { s with events := ev }) hp h⟩
  cases hev : s.events with
  | nil =>
    rw [step_nil hev] at h
    have h' : engineStep { s with events := s.events } = .next t := h
    exact .inl ⟨.inl rfl, heng _ h'⟩
  | cons e rest =>
    rw [step_cons hev] at h
    have hacc : e.isAccess = true → _ := fun ha => deliver_access_cases { s with events := rest } ha
    cases e with
    | engine => exact .inl ⟨.inr ⟨rest, rfl⟩, heng _ h⟩
    | reset => cases h; exact .inr (.inl ⟨rest, rfl, rfl⟩)
    | _ =>
      refine .inr (.inr ⟨_, rest, rfl, rfl, ?_⟩)
      rcases hacc rfl with ⟨r, h'⟩ | ⟨v, hw, h'⟩ | ⟨v, hw, h'⟩ | ⟨v, hw, h'⟩ | ⟨w, hw, h'⟩
      · rw [h'] at h; cases h; exact .inl ⟨r, rfl⟩
      · rw [h'] at h; cases h; exact .inr (.inl ⟨v, hw, rfl⟩)
      · rw [h'] at h; cases h; exact .inr (.inr (.inl ⟨v, hw, rfl⟩))
      · rw [h'] at h; cases h; exact .inr (.inr (.inr (.inl ⟨v, hw, rfl⟩)))
      · rw [h'] at h
        refine .inr (.inr (.inr (.inr ⟨hw, ?_⟩)))
        rcases issueWord_cases w (respond .ack { s with events := rest }) with ⟨hb, h2⟩ | ⟨hb, c, -, h2⟩ | ⟨hb, i, -, -, h2⟩
        · rw [h2] at h; cases h; exact .inl ⟨hb, rfl⟩
        · rw [h2] at h; cases h; exact .inr (.inl ⟨hb, w, c, rfl⟩)
        · obtain ⟨d, p, hp, -, hl⟩ := latchOf_eq i { respond .ack { s with events := rest } with cmd := w }
          rw [h2, hl] at h; cases h; exact .inr (.inr ⟨hb, w, d, p, hp, rfl⟩)

theorem State.MovesTo.events {s t : State} (h : s.MovesTo t) : t.events = s.events := by
  rcases h with ⟨d, p, -, rfl⟩ | ⟨v, rfl⟩ <;> rfl

/-- A step takes exactly the oldest pending event, whatever it is. -/
theorem step_events {s t : State} (h : step s = .next t) : t.events = s.events.tail := by
  have heng : ∀ u : State, engineStep u = .next t → t.events = u.events := by
    intro u h
    by_cases hp : u.phase = .idle
    · simp only [engineStep, hp] at h; cases h; rfl
    · exact (engineStep_moves hp h).events
  cases hev : s.events with
  | nil => rw [step_nil hev] at h; rw [heng s h, hev]; rfl
  | cons e rest =>
    rw [step_cons hev] at h
    by_cases ha : e.isAccess = true
    · rcases deliver_access_cases { s with events := rest } ha with ⟨r, h'⟩ | ⟨v, -, h'⟩ | ⟨v, -, h'⟩ | ⟨v, -, h'⟩ | ⟨w, -, h'⟩
      iterate 4 (rw [h'] at h; cases h; rfl)
      rw [h'] at h
      rcases issueWord_cases w (respond .ack { s with events := rest }) with ⟨-, h2⟩ | ⟨-, c, -, h2⟩ | ⟨-, i, -, -, h2⟩
      · rw [h2] at h; cases h; rfl
      · rw [h2] at h; cases h; rfl
      · obtain ⟨d, p, -, -, hl⟩ := latchOf_eq i { respond .ack { s with events := rest } with cmd := w }
        rw [h2, hl] at h; cases h; rfl
    · cases e with
      | engine => exact heng _ h
      | reset => cases h; rfl
      | _ => exact absurd rfl ha

/-! ## Runs -/

@[simp] theorem run_zero (s : State) : Host.Core.run Sys2Proof.core 0 s = .next s := rfl

/-- A run of k + 1 steps is a step, then a run of k. -/
theorem run_succ {s t : State} (k : Nat) (h : step s = .next t) :
    Host.Core.run Sys2Proof.core (k + 1) s = Host.Core.run Sys2Proof.core k t := by
  have hs : Sys2Proof.core.step s = .next t := h
  simp only [Host.Core.run, hs]

/-- A run that ends in a next state took its first step to a next state. -/
theorem run_succ_inv {s u : State} {k : Nat} (h : Host.Core.run Sys2Proof.core (k + 1) s = .next u) :
    ∃ t, step s = .next t ∧ Host.Core.run Sys2Proof.core k t = .next u := by
  cases hs : step s with
  | next t => exact ⟨t, rfl, by rw [← run_succ k hs]; exact h⟩
  | fault r =>
    have hs' : Sys2Proof.core.step s = .fault r := hs
    simp only [Host.Core.run, hs'] at h
    cases h
  | refused r =>
    have hs' : Sys2Proof.core.step s = .refused r := hs
    simp only [Host.Core.run, hs'] at h
    cases h

end Sys2Proof.Machine
end

