-- ==== Sys2Proof/Laws/PerInstr.lean ====
section
/-! SUPPORT. Facts about commands as syntax, one lemma per constructor (LAWS.json names the family). -/

namespace Sys2Proof.Laws.EncodedFields

/-- A command's word has its opcode in OPC, 0 in RSV, is legal, and lies in the opcode map (30_encoding.md R70, R71, R73). -/
def Statement (i : Instr) : Prop :=
  opcField (encode i) = opcOf i ∧ rsvField (encode i) = 0#28 ∧ legal (encode i) = true ∧ instrOfOpc (opcOf i) = some i ∧
  i.wf = true

theorem mulmod : Statement .mulmod := by unfold Statement; decide
theorem powmod : Statement .powmod := by unfold Statement; decide
theorem sprp : Statement .sprp := by unfold Statement; decide
theorem tdiv : Statement .tdiv := by unfold Statement; decide
theorem isprime : Statement .isprime := by unfold Statement; decide

end Sys2Proof.Laws.EncodedFields
end

