-- ==== Sys2Proof/Tests/Slice0.lean ====
section
/-! SUPPORT. The model's own tests, and a witness for the hypotheses of every statement. Expected values come from the spec:
the words from 30_encoding.md R70, R71, the results from the tables of 95_test_vectors.md, each named at its test. -/

namespace Sys2Proof.Tests

open Sys2Proof.Machine

/-- An idle block with given operands and pending events; everything else as after reset. -/
def idleWith (a b c : Word) (events : List Event := []) : State :=
  { State.reset with arg0 := a, arg1 := b, arg2 := c, events := events }

/-- A block with a command in flight. -/
def busyIn (p : Phase) (d : Datapath) (events : List Event := []) : State :=
  { State.reset with status := 0x00000001#32, phase := p, dp := d, events := events }

/-- A datapath running a command; the rest of it zero. -/
def dpOf (i : Instr) : Datapath := { Datapath.zero with op := opOf i }

/-- What a step that goes on leaves in one field. -/
def after {α : Type} (r : Machine.Result) (f : State → α) : Option α :=
  match r with
  | .next t => some (f t)
  | .fault _ => none
  | .refused _ => none

/-! ## Well-formedness: a term each check refuses -/

/-- 00_scope.md R9: WINDOW_BASE is a multiple of 32. -/
theorem test_config_refuses_unaligned_base : Config.wf { windowBase := 33, stepCycles := 1 } = false := by decide

/-- 00_scope.md R9: STEP_CYCLES is positive. -/
theorem test_config_refuses_zero_step_cycles : Config.wf { windowBase := 64, stepCycles := 0 } = false := by decide

theorem test_config_accepts_reset : Config.wf State.reset.cfg = true := by decide

/-- A command has no field (R72), so no term of `Instr` is ill-formed; words are, and the decoder refuses each by name. -/
theorem test_every_command_is_wellformed : ∀ i : Instr, i.wf = true := fun i => by cases i <;> rfl

theorem test_illegal_words_are_refused_by_name :
    decode 0b00000000000000000000000000000000#32 = .error (.reservedOpcode 0b0000#4) ∧
    decode 0b00000000000000000000000000000110#32 = .error (.reservedOpcode 0b0110#4) ∧
    decode 0b00000000000000000000000000001111#32 = .error (.reservedOpcode 0b1111#4) ∧
    decode 0b00000000000000000000000000010001#32 = .error (.reservedBits 0b1#28) ∧
    decodeBytes [0x01#8, 0x00#8, 0x00#8] = .error (.length 3) ∧
    legal 0x00000006#32 = false ∧ legal 0x80000005#32 = false := by decide

/-! ## Decoding: each word written out from R70 and R71 as RSV [31:4] = 0 and OPC [3:0] -/

theorem test_decode_mulmod : decode 0b00000000000000000000000000000001#32 = .ok .mulmod := by decide
theorem test_decode_powmod : decode 0b00000000000000000000000000000010#32 = .ok .powmod := by decide
theorem test_decode_sprp : decode 0b00000000000000000000000000000011#32 = .ok .sprp := by decide
theorem test_decode_tdiv : decode 0b00000000000000000000000000000100#32 = .ok .tdiv := by decide
theorem test_decode_isprime : decode 0b00000000000000000000000000000101#32 = .ok .isprime := by decide

/-- R53: lane 0 carries bits [7:0]; byte-swapped, the word is no command. -/
theorem test_decode_lanes :
    decodeBytes [0x05#8, 0x00#8, 0x00#8, 0x00#8] = .ok .isprime ∧
    decodeBytes [0x00#8, 0x00#8, 0x00#8, 0x05#8] = .error (.reservedBits 0x0500000#28) := by decide

theorem test_decodeTableWord :
    decodeTableWord 32 0x3 = some .sprp ∧ decodeTableWord 8 0x3 = some .sprp ∧ decodeTableWord 32 0x13 = none ∧
    decodeTableWord 64 0x100000003 = none := by decide

/-- T6.26. -/
theorem test_lanes_of_a_word : lanesOfWord 0x11223344#32 = [0x44#8, 0x33#8, 0x22#8, 0x11#8] := by decide

/-! ## One step of each command (95_test_vectors.md) -/

/-- T6.2: MULMOD with ARG2 = 0, and an accepted one. -/
theorem test_mulmod_issue :
    after (step ((idleWith 3#32 4#32 0#32).withFetchWord 32 0x1)) State.status = some 0x00000022#32 ∧
    after (step ((idleWith 3#32 4#32 5#32).withFetchWord 32 0x1)) State.phase = some .mm := by decide

/-- T2.0, rows 1 and 7: the product needs all 64 bits. -/
theorem test_mulmod_completes :
    after (step (busyIn .mm { dpOf .mulmod with acc := 0xFFFFFFFF#32, pw := 0xFFFFFFFF#32, m := 0xFFFFFFFB#32 }))
      (fun t => (t.result, t.status)) = some (16#32, 0x00000002#32) ∧
    after (step (busyIn .mm { dpOf .mulmod with acc := 0x80000000#32, pw := 2#32, m := 0xFFFFFFFF#32 }))
      State.result = some 1#32 := by decide

/-- T2.2, step 4: both multiplies read the old pw. -/
theorem test_powmod_iterates :
    after (step (busyIn .pmLoop { dpOf .powmod with acc := 4#32, pw := 256#32, ex := 3#32, m := 497#32 }))
      (fun t => (t.dp.acc, t.dp.pw, t.dp.ex)) = some (30#32, 429#32, 1#32) := by decide

/-- T2.2, step 1, at m = 1 (T2.1, conflict C1): acc starts at 1 mod m. -/
theorem test_powmod_init_modulo_one :
    after (step (busyIn .pmInit { dpOf .powmod with wb := 5#32, ex := 0#32, m := 1#32 }))
      (fun t => (t.dp.acc, t.dp.pw)) = some (0#32, 0#32) := by decide

/-- T3.1: SP_CHECK of 13 gives e = 2, d = 3. -/
theorem test_sprp_decomposes :
    after (step (busyIn .spCheck { dpOf .sprp with wb := 2#32, n := 13#32 }))
      (fun t => (t.dp.e, t.dp.d, t.dp.ex, t.dp.m)) = some (2#5, 3#32, 3#32, 13#32) := by decide

/-- T3.1, the last step: 12 = 13 − 1 is found before any squaring. -/
theorem test_sprp_finds_minus_one :
    after (step (busyIn .spSq { dpOf .sprp with n := 13#32, x := 12#32, sq := 1#5 }))
      (fun t => (t.result, t.status)) = some (1#32, 0x00000002#32) := by decide

/-- T4: 61 is PRIME at the last divisor; 67 is a SURVIVOR there. -/
theorem test_tdiv_last_divisor :
    after (step (busyIn .tdLoop { dpOf .tdiv with n := 61#32, k := 61#6 })) State.result = some 1#32 ∧
    after (step (busyIn .tdLoop { dpOf .tdiv with n := 67#32, k := 61#6 })) State.result = some 2#32 := by decide

/-- T4 (conflict C2): 9 is decided COMPOSITE at k = 3. -/
theorem test_tdiv_nine :
    after (step (busyIn .tdLoop { dpOf .tdiv with n := 9#32, k := 3#6 })) (fun t => (t.result, t.phase)) =
      some (0#32, .idle) := by decide

/-- T6.3: ISPRIME 0 right after reset is accepted. -/
theorem test_isprime_issue :
    after (step (State.reset.withFetchWord 32 0x5)) (fun t => (t.status, t.phase)) = some (0x00000001#32, .tdPre) := by
  decide

/-- T5: a survivor goes on to base 2; after base 2 comes base 7. -/
theorem test_isprime_goes_on :
    after (step (busyIn .tdLoop { dpOf .isprime with n := 67#32, k := 61#6 })) (fun t => (t.phase, t.dp.wb, t.dp.bi)) =
      some (.spCheck, 2#32, 0#2) ∧
    after (step (busyIn .spSq { dpOf .isprime with n := 67#32, x := 66#32, sq := 1#5, bi := 0#2 }))
      (fun t => (t.phase, t.dp.wb, t.dp.bi)) = some (.spCheck, 7#32, 1#2) := by decide

/-! ## Errors, bus errors, overrun, reset (95_test_vectors.md T6) -/

/-- T6.12: illegality comes before MOD_ZERO. -/
theorem test_illegal_before_mod_zero :
    after (step (State.reset.withFetchWord 32 0x12)) (fun t => (t.status, t.cmd)) =
      some (0x00000012#32, 0x00000012#32) := by decide

/-- T6.4 and T6.5. -/
theorem test_base_zero_only_for_odd_above_two :
    after (step ((idleWith 0#32 9#32 0#32).withFetchWord 32 0x3)) State.status = some 0x00000032#32 ∧
    after (step ((idleWith 0#32 2#32 0#32).withFetchWord 32 0x3)) State.status = some 0x00000001#32 := by decide

/-- T6.15 to T6.18: WIDTH before MISALIGNED, and RESERVED. -/
theorem test_bus_errors_in_order :
    after (step (idleWith 1#32 0#32 0#32 [.write 0x01 [0#8, 0#8]])) State.response = some (.busError .width) ∧
    after (step (idleWith 1#32 0#32 0#32 [.write 0x10 [0#8, 0#8]])) State.response = some (.busError .width) ∧
    after (step (idleWith 1#32 0#32 0#32 [.read 0x02 4])) State.response = some (.busError .misaligned) ∧
    after (step (idleWith 1#32 0#32 0#32 [.read 0x18 4])) State.response = some (.busError .reserved) ∧
    after (step (idleWith 1#32 0#32 0#32 [.write 0x1C [0#8, 0#8, 0#8, 0#8]])) State.response =
      some (.busError .reserved) := by decide

/-- T6.19, T6.20: STATUS and RESULT are read-only. -/
theorem test_read_only :
    after (step (idleWith 0#32 0#32 0#32 [.write 0x10 [0xFF#8, 0#8, 0#8, 0#8]]))
      (fun t => (t.response, t.status)) = some (.busError .readOnly, 0#32) ∧
    after (step (idleWith 0#32 0#32 0#32 [.write 0x14 [0x78#8, 0x56#8, 0x34#8, 0x12#8]]))
      (fun t => (t.response, t.result)) = some (.busError .readOnly, 0#32) := by decide

/-- T6.22 and T6.23: a write while busy is dropped unchecked, and OVR outlives the completion. -/
theorem test_overrun :
    after (step ((busyIn .mm { dpOf .mulmod with m := 1#32 }).withFetchWord 32 0xFFFFFFFF))
      (fun t => (t.status, t.cmd)) = some (0x00000005#32, 0#32) ∧
    after (step { busyIn .mm { dpOf .mulmod with m := 1#32 } with status := 0x00000005#32 }) State.status =
      some 0x00000006#32 := by decide

/-- T6.24: an illegal CMD write while idle clears OVR. -/
theorem test_idle_write_clears_overrun :
    after (step (({ State.reset with status := 0x00000006#32 } : State).withFetchWord 32 0x0)) State.status =
      some 0x00000012#32 := by decide

/-- T6.25. -/
theorem test_reset_while_busy :
    after (step { busyIn .tdLoop { dpOf .tdiv with n := 67#32, k := 5#6 } [.reset] with arg0 := 67#32, cmd := 4#32 })
      (fun t => (t.status, t.arg0, t.cmd, t.phase)) = some (0#32, 0#32, 0#32, .idle) := by decide

/-! ## Witnesses: states and operands that meet the hypotheses of each statement, clause by clause

The name after `witness_` is the statement's. A statement with no hypothesis has none here. -/

/-- An event that writes a command word. -/
def cmdEvent (w : Word) : Event := .write 0x0C (lanesOfWord w)

theorem witness_DecodeBytesIffEncodeBytes :
    Instr.wf .mulmod = true ∧ decodeBytes [1#8, 0#8, 0#8, 0#8] = .ok .mulmod ∧
    Instr.wf .isprime = true ∧ decodeBytes [5#8, 0#8, 0#8, 0#8] = .ok .isprime := by decide

theorem witness_StepRunsDecodedCommand :
    (idleWith 1#32 2#32 3#32 [.write 0x0C [1#8, 0#8, 0#8, 0#8], .engine]).events =
      .write (State.reset.cfg.windowBase + 0x0C) [1#8, 0#8, 0#8, 0#8] :: [.engine] ∧
    decodeBytes [1#8, 0#8, 0#8, 0#8] = .ok .mulmod := by decide

theorem witness_StepDeliversTheNextEvent :
    (busyIn .tdPre (dpOf .tdiv)).events = [] ∧ (busyIn .tdPre (dpOf .tdiv) [.engine, .reset]).events = .engine :: [.reset] ∧
    State.reset.phase = .idle := by decide

/-- Refused for its OPC at both ends of the reserved range, and for its RSV. -/
theorem witness_IllegalWordReportsIllegalCmd :
    (idleWith 1#32 2#32 3#32).busy = false ∧ legal 0#32 = false ∧ legal 6#32 = false ∧ legal 15#32 = false ∧
    legal 0x11#32 = false := by decide

/-- One state for the clauses on ARG2, and the three ways not to have a BASE_ZERO. -/
theorem witness_AcceptanceLatchesOperands :
    (idleWith 0#32 2#32 1#32).busy = false ∧ (idleWith 0#32 2#32 1#32).arg2 ≠ 0#32 ∧
    (∀ s, s = idleWith 0#32 2#32 1#32 ∨ s = idleWith 0#32 4#32 1#32 ∨ s = idleWith 1#32 3#32 1#32 →
      s.busy = false ∧ ¬ (s.arg0 = 0#32 ∧ 2 < s.arg1.toNat ∧ s.arg1.toNat % 2 = 1)) := by
  refine ⟨by decide, by decide, ?_⟩
  rintro s (rfl | rfl | rfl) <;> decide

theorem witness_OperandErrorReportedAtAcceptance :
    (idleWith 0#32 3#32 0#32).busy = false ∧ (idleWith 0#32 3#32 0#32).arg2 = 0#32 ∧
    (idleWith 0#32 3#32 0#32).arg0 = 0#32 ∧ 2 < (idleWith 0#32 3#32 0#32).arg1.toNat ∧
    (idleWith 0#32 3#32 0#32).arg1.toNat % 2 = 1 ∧
    2 < (idleWith 0#32 0xFFFFFFFF#32 0#32).arg1.toNat ∧ (idleWith 0#32 0xFFFFFFFF#32 0#32).arg1.toNat % 2 = 1 := by decide

/-- A busy state; and a state with OVR = 1 that an event clears, a reset and a CMD write while idle. -/
theorem witness_BusyDropsTheCommandWrite :
    (busyIn .spSq (dpOf .sprp)).busy = true ∧
    (∃ t, deliver .reset { State.reset with status := 6#32 } = .next t ∧ t.ovr = false) ∧
    (∃ t, deliver (cmdEvent 5#32) { State.reset with status := 6#32 } = .next t ∧ t.ovr = false) ∧
    ({ State.reset with status := 6#32 } : State).ovr = true :=
  ⟨by decide, ⟨_, rfl, by decide⟩, ⟨_, rfl, by decide⟩, by decide⟩

theorem witness_MulmodCompletesInOneStep :
    (busyIn .mm { dpOf .mulmod with m := 1#32 }).phase = .mm ∧
    (busyIn .mm { dpOf .mulmod with m := 1#32 }).dp.m ≠ 0#32 ∧
    (idleWith 7#32 8#32 1#32).busy = false ∧ (idleWith 7#32 8#32 1#32).arg2 ≠ 0#32 := by decide

/-- The shortest and the longest exponent; 1 and the largest modulus. -/
theorem witness_PowmodCompletes :
    (∀ s, s = idleWith 0#32 0#32 1#32 ∨ s = idleWith 3#32 0xFFFFFFFF#32 0xFFFFFFFF#32 →
      s.busy = false ∧ s.events = [] ∧ s.arg2 ≠ 0#32) ∧
    bitlen 0#32 = 0 ∧ bitlen 0xFFFFFFFF#32 = 32 := by
  refine ⟨?_, rfl, ?_⟩
  · rintro s (rfl | rfl) <;> decide
  · have h : Nat.log2 (0xFFFFFFFF#32 : Word).toNat = 31 := (Nat.log2_eq_iff (by decide)).2 ⟨by decide, by decide⟩
    rw [bitlen, if_neg (by decide), h]

theorem witness_SprpCompletes :
    ∀ s, s = idleWith 0#32 2#32 0#32 ∨ s = idleWith 0#32 4#32 0#32 ∨ s = idleWith 2#32 4294967295#32 0#32 →
      s.busy = false ∧ s.events = [] ∧ ¬ (s.arg0 = 0#32 ∧ 2 < s.arg1.toNat ∧ s.arg1.toNat % 2 = 1) := by
  rintro s (rfl | rfl | rfl) <;> decide

theorem witness_TdivCompletes : State.reset.busy = false ∧ State.reset.events = [] := by decide

theorem witness_IsprimeCompletes :
    (idleWith 4294967291#32 0#32 0#32).busy = false ∧ (idleWith 4294967291#32 0#32 0#32).events = [] := by decide

/-- A read and a write, also of no byte. -/
theorem witness_HostAccessNeverStalls :
    (idleWith 0#32 0#32 0#32 [.read 0x1F 0]).events = .read 0x1F 0 :: [] ∧ Event.isAccess (.read 0x1F 0) = true ∧
    (busyIn .mm (dpOf .mulmod) [.write 0x00 []]).events = .write 0x00 [] :: [] ∧ Event.isAccess (.write 0x00 []) = true := by
  decide

theorem witness_HostAccessLeavesCommandAlone :
    (busyIn .tdPre (dpOf .tdiv) [cmdEvent 5#32]).events = cmdEvent 5#32 :: [] ∧ (cmdEvent 5#32).isAccess = true ∧
    (busyIn .tdPre (dpOf .tdiv) [cmdEvent 5#32]).busy = true ∧
    ∃ t, step (busyIn .tdPre (dpOf .tdiv) [cmdEvent 5#32]) = .next t :=
  ⟨rfl, rfl, by decide, _, rfl⟩

theorem witness_AcceptedAnswerIsTheFunction :
    ∀ i : Instr, (idleWith 1#32 3#32 5#32).busy = false ∧ (idleWith 1#32 3#32 5#32).operandError i = false := by
  intro i
  cases i <;> decide

/-- A busy state the invariant allows, in the phase with the longest invariant: ISPRIME 67 in its first squaring step, with
a CMD write pending. -/
def survivorInFlight (events : List Event) : State :=
  busyIn .spSq { dpOf .isprime with wb := 2#32, n := 67#32, d := 33#32, e := 1#5, m := 67#32, x := 66#32, sq := 1#5,
                                    bi := 0#2 } events

/-- The invariant does not mention the events. -/
theorem survivorInFlight_inv (events : List Event) : (survivorInFlight events).Inv := by
  suffices h : (survivorInFlight []).Inv from h
  refine ⟨by decide, ?_, ?_⟩
  · exact ⟨by decide, by decide, by decide, by decide, by decide, by decide⟩
  · show (survivorInFlight []).dp.Ok .spSq
    exact ⟨⟨by decide, by decide⟩, by decide, by decide, by decide⟩

theorem witness_InFlightAnswerIsKept :
    (survivorInFlight [cmdEvent 5#32]).Inv ∧ (survivorInFlight [cmdEvent 5#32]).busy = true ∧
    (survivorInFlight [cmdEvent 5#32]).events.head? ≠ some .reset :=
  ⟨survivorInFlight_inv _, by decide, by decide⟩

theorem witness_InFlightCommandCompletes :
    (survivorInFlight []).Inv ∧ (survivorInFlight []).busy = true ∧ (survivorInFlight []).events = [] :=
  ⟨survivorInFlight_inv _, by decide, rfl⟩

theorem reset_inv : State.reset.Inv := ⟨by decide, by decide, trivial⟩

/-- MULMOD 3, 4, 5 with its third operand overwritten and another command written before the engine's one step. -/
def mulmodOverwritten : State :=
  idleWith 3#32 4#32 5#32 [.write 0x08 [0#8, 0#8, 0#8, 0#8], cmdEvent 4#32, .engine]

theorem witness_AnswerUnderEveryInterleaving :
    mulmodOverwritten.Inv ∧ mulmodOverwritten.busy = false ∧ mulmodOverwritten.operandError .mulmod = false ∧
    (∀ e, e ∈ mulmodOverwritten.events → e ≠ .reset) ∧
    ∃ t u : State, exec .mulmod mulmodOverwritten = .next t ∧
      (∀ j, j ≤ 2 → ∃ w : State, Host.Core.run Sys2Proof.core j t = .next w ∧ w.busy = true) ∧
      Host.Core.run Sys2Proof.core (2 + 1) t = .next u ∧ u.busy = false := by
  refine ⟨⟨by decide, by decide, trivial⟩, by decide, by decide, by decide, _, _, rfl, ?_, rfl, by decide⟩
  intro j hj
  interval_cases j <;> exact ⟨_, rfl, by decide⟩

theorem witness_EngineReadsOnlyItsDatapath :
    (survivorInFlight []).phase ≠ .idle ∧
    ({ survivorInFlight [] with arg0 := 9#32 } : State).phase = (survivorInFlight []).phase ∧
    ({ survivorInFlight [] with arg0 := 9#32 } : State).dp = (survivorInFlight []).dp ∧
    ∃ t, engineStep (survivorInFlight []) = .next t :=
  ⟨by decide, rfl, rfl, _, rfl⟩

theorem witness_StepCyclesChangeNothing : ∃ t, step (survivorInFlight []) = .next t := ⟨_, rfl⟩

/-- An engine step that completes, and one that goes on. -/
theorem witness_EngineStepFrame :
    (busyIn .tdPre { dpOf .tdiv with n := 2#32 }).phase ≠ .idle ∧
    (∃ t, engineStep (busyIn .tdPre { dpOf .tdiv with n := 2#32 }) = .next t ∧ t.phase = .idle) ∧
    (∃ t, engineStep (busyIn .tdPre { dpOf .tdiv with n := 67#32 }) = .next t ∧ t.phase = .tdLoop) :=
  ⟨by decide, ⟨_, rfl, rfl⟩, ⟨_, rfl, rfl⟩⟩

/-- The clauses in order, at the boundary values of the offset and the size, with what `MemRead` gives there. -/
theorem witness_ReadFollowsMemRead :
    ∀ c ∈ [(0, 3), (31, 5), (31, 0), (1, 4), (31, 4), (0x00, 4), (0x04, 4), (0x08, 4), (0x0C, 4), (0x10, 4), (0x14, 4),
           (0x18, 4), (0x1C, 4)],
      c.1 < 32 ∧ (idleWith 1#32 2#32 3#32 [.read c.1 c.2]).events = .read (State.reset.cfg.windowBase + c.1) c.2 :: [] := by
  decide

theorem witness_WriteFollowsMemWrite :
    ∀ c ∈ [(0, [0#8, 0#8, 0#8]), (31, [0#8, 0#8, 0#8, 0#8, 0#8]), (31, []), (1, lanesOfWord 5#32), (31, lanesOfWord 5#32),
           (0x00, lanesOfWord 5#32), (0x04, lanesOfWord 5#32), (0x08, lanesOfWord 5#32), (0x0C, lanesOfWord 5#32),
           (0x10, lanesOfWord 5#32), (0x14, lanesOfWord 5#32), (0x18, lanesOfWord 5#32), (0x1C, lanesOfWord 5#32)],
      c.1 < 32 ∧
      (idleWith 1#32 2#32 3#32 [.write c.1 c.2]).events = .write (State.reset.cfg.windowBase + c.1) c.2 :: [] := by
  decide

theorem witness_ByteLanesAreLittleEndian :
    0 < 4 ∧ (lanesOfWord 0x11223344#32)[0]? = some 0x44#8 ∧ 3 < 4 ∧ (lanesOfWord 0x11223344#32)[3]? = some 0x11#8 ∧
    [1#8, 2#8, 3#8, 4#8].length = 4 := by decide

/-- Two engine turns of an in-flight command between the write and the read, at each ARG register. -/
theorem witness_ArgumentReadsBackLastWrite :
    ∀ r : Reg, r = .arg0 ∨ r = .arg1 ∨ r = .arg2 →
      ∃ (s u : State) (rest : List Event), [1#8, 2#8, 3#8, 4#8].length = 4 ∧
        s.events = .write (regAddr s.cfg r) [1#8, 2#8, 3#8, 4#8] ::
          (List.replicate 2 .engine ++ .read (regAddr s.cfg r) 4 :: rest) ∧
        Host.Core.run Sys2Proof.core (2 + 2) s = .next u := by
  rintro r (rfl | rfl | rfl)
  · exact ⟨busyIn .tdPre { dpOf .tdiv with n := 67#32 } [.write 0 [1#8, 2#8, 3#8, 4#8], .engine, .engine, .read 0 4],
      _, [], rfl, rfl, rfl⟩
  · exact ⟨busyIn .tdPre { dpOf .tdiv with n := 67#32 } [.write 4 [1#8, 2#8, 3#8, 4#8], .engine, .engine, .read 4 4],
      _, [], rfl, rfl, rfl⟩
  · exact ⟨busyIn .tdPre { dpOf .tdiv with n := 67#32 } [.write 8 [1#8, 2#8, 3#8, 4#8], .engine, .engine, .read 8 4],
      _, [], rfl, rfl, rfl⟩

/-- One byte below the window, and the first address above it. -/
theorem witness_AccessOutsideWindowIsIgnored :
    ({ windowBase := 64, stepCycles := 1 } : Config).wf = true ∧
    63 < ({ State.reset with cfg := { windowBase := 64, stepCycles := 1 }, events := [.read 63 4] } : State).cfg.windowBase ∧
    State.reset.cfg.windowBase + 32 ≤ 32 ∧ (idleWith 0#32 0#32 0#32 [.read 32 4]).events = .read 32 4 :: [] ∧
    (idleWith 0#32 0#32 0#32 [.write 32 [1#8]]).events = .write 32 [1#8] :: [] := by decide

/-- A STATUS change by each of its three ways. -/
theorem witness_StatusChangesOnlyByItsEvents :
    (∃ t, step (survivorInFlight [.reset]) = .next t ∧ t.status ≠ (survivorInFlight [.reset]).status) ∧
    (∃ t, step (survivorInFlight [cmdEvent 0#32]) = .next t ∧ t.status ≠ (survivorInFlight [cmdEvent 0#32]).status) ∧
    (∃ t, step (busyIn .tdPre (dpOf .tdiv)) = .next t ∧ t.status ≠ (busyIn .tdPre (dpOf .tdiv)).status) :=
  ⟨⟨_, rfl, by decide⟩, ⟨_, rfl, by decide⟩, ⟨_, rfl, by decide⟩⟩

/-- Each register changing: ARG0 to ARG2 and CMD by a write, RESULT by a refused word and by a completion, the phase by an
acceptance and by an engine step. -/
theorem witness_RegistersChangeOnlyByTheirEvents :
    (∃ t, step (idleWith 0#32 0#32 0#32 [.write 0 (lanesOfWord 1#32)]) = .next t ∧ t.arg0 ≠ 0#32) ∧
    (∃ t, step (idleWith 0#32 0#32 0#32 [.write 4 (lanesOfWord 1#32)]) = .next t ∧ t.arg1 ≠ 0#32) ∧
    (∃ t, step (idleWith 0#32 0#32 0#32 [.write 8 (lanesOfWord 1#32)]) = .next t ∧ t.arg2 ≠ 0#32) ∧
    (∃ t, step (idleWith 0#32 0#32 0#32 [cmdEvent 4#32]) = .next t ∧ t.cmd ≠ 0#32 ∧ t.phase ≠ .idle) ∧
    (∃ t, step { State.reset with result := 7#32, events := [cmdEvent 0#32] } = .next t ∧ t.result ≠ 7#32) ∧
    (∃ t, step (busyIn .tdPre { dpOf .tdiv with n := 2#32 }) = .next t ∧ t.result ≠ 0#32 ∧ t.phase ≠ .tdPre) ∧
    [Event.engine].head? ≠ some .reset :=
  ⟨⟨_, rfl, by decide⟩, ⟨_, rfl, by decide⟩, ⟨_, rfl, by decide⟩, ⟨_, rfl, by decide, by decide⟩, ⟨_, rfl, by decide⟩,
    ⟨_, rfl, by decide, by decide⟩, by decide⟩

/-- After a completion: an ARG write, an engine turn and a read of RESULT. -/
def afterCompletion : List Event := [.write 0 (lanesOfWord 9#32), .engine, .read 0x14 4]

theorem witness_ResultStaysUntilTheNextCommand :
    ∃ s u : State, s.phase = .idle ∧ s.events = afterCompletion ++ [] ∧
      (∀ e, e ∈ afterCompletion → e ≠ .reset ∧ e.writesReg s.cfg .cmd = false) ∧
      Host.Core.run Sys2Proof.core afterCompletion.length s = .next u ∧
      afterCompletion.getLast? = some (.read (s.cfg.windowBase + 0x14) 4) :=
  ⟨{ State.reset with status := 2#32, result := 445#32, cmd := 2#32, events := afterCompletion }, _, rfl, rfl, by decide,
    rfl, rfl⟩

theorem witness_PmInitStep :
    (busyIn .pmInit { dpOf .powmod with m := 1#32 }).phase = .pmInit ∧
    (busyIn .pmInit { dpOf .powmod with m := 1#32 }).dp.m ≠ 0#32 := by decide

theorem witness_PmLoopStep :
    ∀ d ∈ [{ dpOf .powmod with ex := 1#32, m := 1#32 }, dpOf .powmod, dpOf .isprime],
      (busyIn .pmLoop d).phase = .pmLoop ∧
      ((d.ex ≠ 0#32 ∧ d.m ≠ 0#32) ∨ (d.ex = 0#32 ∧ d.op = 2#3) ∨ (d.ex = 0#32 ∧ d.op ≠ 2#3)) := by decide

/-- The smallest candidate, and the one with e = 31. -/
theorem witness_SpCheckDecomposesCandidate :
    ∀ n ∈ [3#32, 2147483649#32],
      (busyIn .spCheck { dpOf .sprp with wb := 2#32, n := n }).phase = .spCheck ∧ 3 ≤ n.toNat ∧ n.toNat % 2 = 1 ∧
      (2#32 : Word) ≠ 0#32 ∧ n.toNat % (2#32 : Word).toNat ≠ 0 := by
  simp [busyIn]

theorem witness_WitnessBasesRunInOrder :
    (busyIn .spTest (dpOf .sprp)).dp.op = 3#3 ∧ (busyIn .spTest (dpOf .isprime)).dp.op = 5#3 ∧
    (∀ b ∈ [0#2, 1#2, 2#2], (busyIn .spTest { dpOf .isprime with bi := b }).dp.bi = b) := by decide

/-- Both clauses of SP_TEST and the three of SP_SQ; n = 1 with x = 1 is where R136's formed n − 1 is smallest. -/
theorem witness_SquaringLoopSteps :
    (busyIn .spTest { dpOf .sprp with x := 1#32 }).dp.x = 1#32 ∧ (busyIn .spTest { dpOf .sprp with x := 0#32 }).dp.x ≠ 1#32 ∧
    (busyIn .spSq (dpOf .sprp)).phase = .spSq ∧ (busyIn .spSq (dpOf .sprp)).dp.sq = 0#5 ∧
    (busyIn .spSq { dpOf .sprp with sq := 1#5, x := 12#32, n := 13#32 }).dp.sq ≠ 0#5 ∧
    (12#32 : Word).toNat + 1 = (13#32 : Word).toNat ∧ (1#32 : Word).toNat + 1 ≠ (1#32 : Word).toNat ∧
    (1#32 : Word) ≠ 0#32 := by decide

/-- The boundaries of the four clauses: 2; 0 and 1; 4 and the largest even; 3 and the largest odd. -/
theorem witness_TdPreStep :
    (busyIn .tdPre { dpOf .tdiv with n := 2#32 }).phase = .tdPre ∧ (2#32 : Word).toNat = 2 ∧
    (0#32 : Word).toNat < 2 ∧ (1#32 : Word).toNat < 2 ∧
    (∀ n ∈ ([4#32, 0xFFFFFFFE#32] : List Word), 2 < n.toNat ∧ n.toNat % 2 = 0) ∧
    (∀ n ∈ ([3#32, 0xFFFFFFFF#32] : List Word), 2 < n.toNat ∧ n.toNat % 2 = 1) := by
  simp [busyIn]

theorem witness_FilterReturnsItsVerdict :
    (busyIn .tdLoop (dpOf .tdiv)).dp.op = 4#3 ∧ (busyIn .tdLoop (dpOf .isprime)).dp.op = 5#3 := by decide

/-- The divisors 3 and 61, in each clause. -/
theorem witness_TdLoopStep :
    ∀ c ∈ ([(3#32, 3#6), (61#32, 61#6), (9#32, 3#6), (3721#32, 61#6), (67#32, 61#6), (67#32, 3#6), (67#32, 59#6)]
        : List (Word × BitVec 6)),
      (busyIn .tdLoop { dpOf .tdiv with n := c.1, k := c.2 }).phase = .tdLoop ∧ 3 ≤ c.2.toNat ∧ c.2.toNat ≤ 61 ∧
      c.2.toNat % 2 = 1 ∧
      (c.1.toNat = c.2.toNat ∨ (c.1.toNat ≠ c.2.toNat ∧ c.1.toNat % c.2.toNat = 0) ∨
        (c.1.toNat % c.2.toNat ≠ 0 ∧ c.2.toNat = 61) ∨ (c.1.toNat % c.2.toNat ≠ 0 ∧ c.2.toNat ≠ 61)) := by
  simp [busyIn]

theorem witness_EveryStepKeepsTheInvariant :
    (survivorInFlight []).Inv ∧ ∃ t, step (survivorInFlight []) = .next t := ⟨survivorInFlight_inv _, _, rfl⟩

theorem witness_NoStepFaults : (survivorInFlight [.read 0x18 1]).Inv ∧ State.reset.Inv :=
  ⟨survivorInFlight_inv _, reset_inv⟩

theorem witness_WidenedMultiplyLaws : (1#32 : Word) ≠ 0#32 ∧ (0xFFFFFFFF#32 : Word) ≠ 0#32 := by decide

theorem witness_PowmodLaws : (1#32 : Word) ≠ 0#32 ∧ (497#32 : Word) ≠ 0#32 := by decide

/-- 0 and 2; 4; a prime base that divides n; 3 to base 1. -/
theorem witness_SprpEdgeCases :
    (0#32 : Word).toNat ≤ 2 ∧ (2#32 : Word).toNat ≤ 2 ∧ 2 < (4#32 : Word).toNat ∧ (4#32 : Word).toNat % 2 = 0 ∧
    (Nat.Prime (7#32 : Word).toNat ∧ (7#32 : Word).toNat ∣ (49#32 : Word).toNat) ∧ 2 < (3#32 : Word).toNat ∧
    (3#32 : Word).toNat % 2 = 1 := by
  refine ⟨by decide, by decide, by decide, by decide, ⟨?_, by decide⟩, by decide, by decide⟩
  show Nat.Prime 7
  norm_num

/-- 13 − 1 = 3 · 2^2 (T3.1), and the largest e: 2^31 + 1. -/
theorem witness_SprpIsTheStrongTest :
    (2#32 : Word) ≠ 0#32 ∧ 3 ≤ (13#32 : Word).toNat ∧ (13#32 : Word).toNat % 2 = 1 ∧
    (13#32 : Word).toNat % (2#32 : Word).toNat ≠ 0 ∧ (13#32 : Word).toNat - 1 = 3 * 2 ^ 2 ∧ 3 % 2 = 1 ∧
    (2147483649#32 : Word).toNat - 1 = 1 * 2 ^ 31 := by decide

theorem witness_OddPrimesPassTheTest :
    Nat.Prime (3#32 : Word).toNat ∧ (3#32 : Word).toNat % 2 = 1 ∧ 1 < (2#32 : Word).toNat ∧
    (2#32 : Word).toNat % (3#32 : Word).toNat ≠ 0 := by
  refine ⟨?_, by decide, by decide, by decide⟩
  show Nat.Prime 3
  norm_num

/-- The smallest odd composite is answered "not prime". -/
theorem witness_NotPrimeAnswersAreRight : isPrime 9#32 = false := by decide

/-- A survivor that passes all three bases (T5). -/
theorem witness_PrimalityIffNoStrongPseudoprime :
    trialDiv 67#32 = .survivor ∧ sprp 2#32 67#32 = true ∧ sprp 7#32 67#32 = true ∧ sprp 61#32 67#32 = true := by decide

theorem witness_IsPrimeBelowTenThousand : (0#32 : Word).toNat < 10000 ∧ (9999#32 : Word).toNat < 10000 := by decide

end Sys2Proof.Tests
end

/-! ## What every step keeps and what each event may change (10_state.md) -/

section

namespace Sys2Proof.Machine

/-! ### STATUS after each operation that writes it (10_state.md R24) -/

/-- A block whose registers read 0 in phase IDLE, as after a reset (10_state.md R20, R27). -/
theorem statusOk_of_cleared {s : State} (hs : s.status = 0#32) (hc : s.cmd = 0#32) (hr : s.result = 0#32)
    (hp : s.phase = .idle) : s.StatusOk := by
  simp [State.StatusOk, State.busy, State.done, State.err, hs, hc, hr, hp]

/-- Going on to another phase of the same command writes nothing that R24 speaks of. -/
theorem statusOk_goesOn {s : State} (h : s.StatusOk) (hp : s.phase ≠ .idle) (d : Datapath) {p : Phase}
    (hp' : p ≠ .idle) : { s with dp := d, phase := p }.StatusOk := by
  obtain ⟨hres, herr, hidle, hbusy, hnew, hzero⟩ := h
  exact ⟨hres, herr, iff_of_false hp' fun hb => hp (hidle.2 hb), hbusy, hnew, hzero⟩

theorem complete_statusOk {s : State} (h : s.StatusOk) (v : Word) : (complete v s).StatusOk := by
  obtain ⟨hres, -⟩ := h
  simp [State.StatusOk, State.busy, State.done, State.err, hres]

/-- An error report at a CMD write while idle, whatever the word in CMD (60_exceptions.md R203). -/
theorem cmdError_statusOk {s : State} (h : s.StatusOk) (hb : s.busy = false) (c : ErrCode) (w : Word) :
    (cmdError c { s with cmd := w }).StatusOk := by
  obtain ⟨-, -, hidle, -⟩ := h
  simp [State.StatusOk, State.busy, State.done, State.err, hidle.2 hb, c.code_le]

theorem dropCommand_statusOk {s : State} (h : s.StatusOk) (hb : s.busy = true) : (dropCommand s).StatusOk := by
  obtain ⟨hres, herr, hidle, hbusy, -, hzero⟩ := h
  have hb' : (dropCommand s).busy = true := by simpa [State.busy] using hb
  have hd : (dropCommand s).done = s.done := Status.done_overrun _
  have he : (dropCommand s).err = s.err := Status.err_overrun _
  refine ⟨by simpa using hres, by rwa [he], by rw [hb', ← hb]; exact hidle, fun _ => ?_, fun hf => ?_, ?_⟩
  · rw [hd, he]; exact hbusy hb
  · simp [hb'] at hf
  · rw [he]; exact hzero

theorem latchOf_statusOk (i : Instr) (s : State) : (latchOf i s).StatusOk := by
  obtain ⟨d, p, hp, -, hl⟩ := latchOf_eq i s
  rw [hl]
  simp [State.StatusOk, State.busy, State.done, State.err, hp]

/-! ### The invariant after each event -/

theorem latchOf_cfg (i : Instr) (s : State) : (latchOf i s).cfg = s.cfg := by
  obtain ⟨d, p, -, -, hl⟩ := latchOf_eq i s
  rw [hl]

theorem engineStep_idle {s : State} (h : s.phase = .idle) : engineStep s = .next s := by
  simp only [engineStep, h]

theorem resetBlock_inv {s : State} (h : s.Inv) : (resetBlock s).Inv :=
  ⟨h.1, statusOk_of_cleared Status.pack_reset rfl rfl rfl, trivial⟩

/-- A CMD write, of any word, in any phase (30_encoding.md R75). -/
theorem issueWord_inv {s t : State} {w : Word} (h : s.Inv) (ht : issueWord w s = .next t) : t.Inv := by
  obtain ⟨hcfg, hst, hok⟩ := h
  rcases issueWord_cases w s with ⟨hb, he⟩ | ⟨hb, c, -, he⟩ | ⟨-, i, -, ho, he⟩ <;> rw [he] at ht <;> cases ht
  · exact ⟨hcfg, dropCommand_statusOk hst hb, hok⟩
  · exact ⟨hcfg, cmdError_statusOk hst hb c w, hok⟩
  · exact ⟨by rwa [latchOf_cfg], latchOf_statusOk i _, latchOf_ok (s := { s with cmd := w }) ho⟩

/-- The engine's turn, in any phase. A completion leaves the hidden registers free, and R32 asks nothing of them in IDLE
(10_state.md R28, R30). -/
theorem engineStep_inv {s t : State} (h : s.Inv) (ht : engineStep s = .next t) : t.Inv := by
  by_cases hp : s.phase = .idle
  · rw [engineStep_idle hp] at ht; cases ht; exact h
  obtain ⟨hcfg, hst, hok⟩ := h
  rcases engineStep_advances hok hp with ⟨d, p, he, hp', hok', -, -⟩ | he <;> rw [he] at ht <;> cases ht
  · exact ⟨hcfg, statusOk_goesOn hst hp d hp', hok'⟩
  · exact ⟨hcfg, complete_statusOk hst _, trivial⟩

theorem deliver_inv {s t : State} {e : Event} (h : s.Inv) (ht : deliver e s = .next t) : t.Inv := by
  by_cases ha : e.isAccess = true
  · rcases deliver_access_cases s ha with ⟨r, he⟩ | ⟨v, -, he⟩ | ⟨v, -, he⟩ | ⟨v, -, he⟩ | ⟨w, -, he⟩ <;> rw [he] at ht
    iterate 4 (cases ht; exact h)
    exact issueWord_inv (s := respond .ack s) h ht
  · cases e with
    | read | write => exact absurd rfl ha
    | engine => exact engineStep_inv h ht
    | reset => cases ht; exact resetBlock_inv h

/-- Settles O44: the invariant says nothing of the events, so a step keeps it as the event it takes does. -/
theorem everyStepKeepsTheInvariant : Obligations.EveryStepKeepsTheInvariant := by
  intro s t h ht
  cases hev : s.events with
  | nil => rw [step_nil hev] at ht; exact engineStep_inv h ht
  | cons e rest => rw [step_cons hev] at ht; exact deliver_inv (s := { s with events := rest }) h ht

/-- Settles O29, field by field. -/
theorem resetStateHasSpecValues : Obligations.ResetStateHasSpecValues :=
  ⟨rfl, rfl, rfl, rfl, rfl, rfl, rfl, Status.busy_zero, Status.done_zero, Status.ovr_zero, Status.err_zero⟩

/-- Settles O43: the registers read 0, and R32 asks nothing of the datapath in IDLE. -/
theorem resetMeetsTheInvariant : Obligations.ResetMeetsTheInvariant :=
  ⟨by decide, statusOk_of_cleared rfl rfl rfl rfl, trivial⟩

/-! ### The engine's frame -/

/-- Settles O23: the engine goes on with STATUS and RESULT as they are, or completes. -/
theorem engineStepFrame : Obligations.EngineStepFrame := by
  intro s t hp h
  rcases engineStep_moves hp h with ⟨d, p, hp', rfl⟩ | ⟨v, rfl⟩
  · exact ⟨rfl, rfl, rfl, rfl, rfl, rfl, rfl, rfl, .inl ⟨hp', rfl, rfl⟩⟩
  · exact ⟨rfl, rfl, rfl, rfl, Status.ovr_completed _, rfl, rfl, rfl,
      .inr ⟨rfl, Status.busy_completed _, Status.done_completed _, Status.err_completed _, Status.reserved_completed _⟩⟩

/-! ### Who may change what -/

/-- Settles O32, by the event the step takes. -/
theorem statusChangesOnlyByItsEvents : Obligations.StatusChangesOnlyByItsEvents := by
  intro s t h hne
  rcases step_cases h with
    ⟨hturn, ⟨-, ev, rfl⟩ | ⟨hp, ev, ⟨d, p, -, rfl⟩ | ⟨v, rfl⟩⟩⟩ | ⟨rest, hev, -⟩ |
    ⟨e, rest, hev, -, ⟨r, rfl⟩ | ⟨v, -, rfl⟩ | ⟨v, -, rfl⟩ | ⟨v, -, rfl⟩ | ⟨hw, -⟩⟩
  · exact absurd rfl hne
  · exact absurd rfl hne
  · exact .inr (.inr ⟨hturn, hp, rfl⟩)
  · exact .inl ⟨rest, hev⟩
  · exact absurd rfl hne
  · exact absurd rfl hne
  · exact absurd rfl hne
  · exact absurd rfl hne
  · exact .inr (.inl ⟨e, rest, hev, hw⟩)

/-- Settles O33, by the event the step takes: in each case the registers it does not write are the same term. -/
theorem registersChangeOnlyByTheirEvents : Obligations.RegistersChangeOnlyByTheirEvents := by
  intro s t h hreset
  have same {α : Type} {a : α} {P : Prop} (hne : a ≠ a) : P := absurd rfl hne
  rcases step_cases h with
    ⟨hturn, ⟨-, ev, rfl⟩ | ⟨hp, ev, ⟨d, p, -, rfl⟩ | ⟨v, rfl⟩⟩⟩ | ⟨rest, hev, -⟩ |
    ⟨e, rest, hev, -, ⟨r, rfl⟩ | ⟨v, hw, rfl⟩ | ⟨v, hw, rfl⟩ | ⟨v, hw, rfl⟩ |
      ⟨hw, ⟨-, rfl⟩ | ⟨hb, w, c, rfl⟩ | ⟨hb, w, d, p, -, rfl⟩⟩⟩
  · exact ⟨same, same, same, same, same, same⟩
  · exact ⟨same, same, same, same, same, fun _ => .inr ⟨hturn, hp⟩⟩
  · exact ⟨same, same, same, same, fun _ => .inr ⟨hturn, hp, rfl⟩, fun _ => .inr ⟨hturn, hp⟩⟩
  · simp [hev] at hreset
  · exact ⟨same, same, same, same, same, same⟩
  · exact ⟨fun _ => ⟨e, rest, hev, hw⟩, same, same, same, same, same⟩
  · exact ⟨same, fun _ => ⟨e, rest, hev, hw⟩, same, same, same, same⟩
  · exact ⟨same, same, fun _ => ⟨e, rest, hev, hw⟩, same, same, same⟩
  · exact ⟨same, same, same, same, same, same⟩
  · exact ⟨same, same, same, fun _ => ⟨hb, e, rest, hev, hw⟩, fun _ => .inl ⟨hb, e, rest, hev, hw⟩, same⟩
  · exact ⟨same, same, same, fun _ => ⟨hb, e, rest, hev, hw⟩, same, fun _ => .inl ⟨hb, e, rest, hev, hw⟩⟩

/-! ### An ARG register across the engine's turns (10_state.md R21) -/

theorem lanesOfWord_wordOfLanes_of_length {l : List Byte} (h : l.length = 4) : lanesOfWord (wordOfLanes l) = l := by
  match l, h with
  | [a, b, c, d], _ => exact lanesOfWord_wordOfLanes a b c d

/-- A 4-byte read at a register's address answers its lanes (20_memory.md R54). -/
theorem hostRead_regAddr (r : Reg) (s : State) :
    hostRead (regAddr s.cfg r) 4 s = respond (.data (lanesOfWord (readReg r s))) s := by
  simp [hostRead]

/-- A 4-byte write at an ARG register's address puts the word there (20_memory.md R55). -/
theorem hostWrite_regAddr_arg {r : Reg} {lanes : List Byte} (hr : r = .arg0 ∨ r = .arg1 ∨ r = .arg2)
    (hl : lanes.length = 4) (s : State) :
    ∃ t, hostWrite (regAddr s.cfg r) lanes s = .next t ∧ readReg r t = wordOfLanes lanes ∧ t.cfg = s.cfg ∧
      t.events = s.events := by
  simp only [hostWrite, windowOffset_regAddr, hl, checkAccess_offsetOf]
  rcases hr with rfl | rfl | rfl <;> exact ⟨_, rfl, rfl, rfl, rfl⟩

/-- The engine's turn, busy or idle, leaves the ARG registers and WINDOW_BASE (10_state.md R21). -/
theorem engineStep_readReg_arg {r : Reg} {s t : State} (hr : r = .arg0 ∨ r = .arg1 ∨ r = .arg2)
    (h : engineStep s = .next t) : readReg r t = readReg r s ∧ t.cfg = s.cfg := by
  by_cases hp : s.phase = .idle
  · rw [engineStep_idle hp] at h; cases h; exact ⟨rfl, rfl⟩
  · obtain ⟨h0, h1, h2, -, -, hcfg, -⟩ := engineStepFrame s t hp h
    rcases hr with rfl | rfl | rfl
    · exact ⟨h0, hcfg⟩
    · exact ⟨h1, hcfg⟩
    · exact ⟨h2, hcfg⟩

/-- A run that begins with engine turns goes through a state with those turns taken and the ARG register as it was. -/
theorem run_engineTurns_arg {r : Reg} (hr : r = .arg0 ∨ r = .arg1 ∨ r = .arg2) {evs : List Event} {k : Nat} {u : State} :
    ∀ (turns : Nat) (s : State), s.events = List.replicate turns .engine ++ evs →
      Host.Core.run Sys2Proof.core (turns + k) s = .next u →
      ∃ t, Host.Core.run Sys2Proof.core k t = .next u ∧ t.events = evs ∧ readReg r t = readReg r s ∧ t.cfg = s.cfg
  | 0, s, hev, hrun => ⟨s, by simpa using hrun, hev, rfl, rfl⟩
  | turns + 1, s, hev, hrun => by
    rw [Nat.succ_add] at hrun
    obtain ⟨m, hm, hrun⟩ := run_succ_inv hrun
    have hmev : m.events = List.replicate turns .engine ++ evs := by rw [step_events hm, hev]; rfl
    rw [step_cons (show s.events = .engine :: (List.replicate turns .engine ++ evs) from hev)] at hm
    obtain ⟨hreg, hcfg⟩ := engineStep_readReg_arg hr hm
    obtain ⟨t, ht, htev, htreg, htcfg⟩ := run_engineTurns_arg hr turns m hmev hrun
    exact ⟨t, ht, htev, htreg.trans hreg, htcfg.trans hcfg⟩

/-- Settles O27: the write, the engine's turns (by induction), the read. -/
theorem argumentReadsBackLastWrite : Obligations.ArgumentReadsBackLastWrite := by
  intro s r lanes turns rest u hr hl hev hrun
  obtain ⟨a, ha, hrun⟩ := run_succ_inv hrun
  rw [step_cons hev] at ha
  obtain ⟨b, hw, hbreg, hbcfg, hbev⟩ := hostWrite_regAddr_arg hr hl { s with events := _ }
  cases hw.symm.trans ha
  obtain ⟨c, hrun, hcev, hcreg, hccfg⟩ := run_engineTurns_arg hr turns a hbev hrun
  obtain ⟨u', hu, hrun⟩ := run_succ_inv hrun
  cases hrun
  have haddr : regAddr s.cfg r = regAddr c.cfg r := by rw [hccfg, hbcfg]
  rw [step_cons hcev, haddr, deliver, hostRead_regAddr r { c with events := rest }] at hu
  cases hu
  refine ⟨?_, rfl⟩
  show Response.data (lanesOfWord (readReg r c)) = _
  rw [hcreg, hbreg, lanesOfWord_wordOfLanes_of_length hl]

end Sys2Proof.Machine
end

/-! ## The host's accesses and the events of the total order (20_memory.md) -/

section

namespace Sys2Proof.Machine

/-! ### The byte lanes (20_memory.md R53) -/

/-- Lane i of a word, for each i below 4, is cut out at bit 8i. -/
theorem lanesOfWord_getElem? (w : Word) {i : Nat} (h : i < 4) :
    (lanesOfWord w)[i]? = some (w.extractLsb' (8 * i) 8) := by
  match i, h with
  | 0, _ | 1, _ | 2, _ | 3, _ => rfl

/-- Settles O26: a lane by its place in the list, and the two inverse laws of the lanes. -/
theorem byteLanesAreLittleEndian : Obligations.ByteLanesAreLittleEndian := by
  refine ⟨fun w i hi => ?_, wordOfLanes_lanesOfWord, fun l => lanesOfWord_wordOfLanes_of_length⟩
  rw [lanesOfWord_getElem? w hi, BitVec.extractLsb', Nat.shiftRight_eq_div_pow]

/-! ### What an offset of the window reaches (20_memory.md R51, R52; 60_exceptions.md R206) -/

theorem checkAccess_width (off : Nat) {size : Nat} (h : size ≠ 4) : checkAccess off size = .error .width := by
  simp [checkAccess, h]

theorem checkAccess_misaligned {off : Nat} (h : off % 4 ≠ 0) : checkAccess off 4 = .error .misaligned := by
  simp [checkAccess, h]

theorem checkAccess_reserved {off : Nat} (h : off = 0x18 ∨ off = 0x1C) : checkAccess off 4 = .error .reserved := by
  rcases h with rfl | rfl <;> decide

theorem windowOffset_outside {c : Config} {addr : Nat} (h : addr < c.windowBase ∨ c.windowBase + 32 ≤ addr) :
    windowOffset c addr = none := by
  unfold windowOffset Config.windowSize
  rw [if_neg (by omega)]

/-! ### A read, clause by clause (20_memory.md R54) -/

theorem hostRead_outside {s : State} {addr : Nat} (h : windowOffset s.cfg addr = none) (size : Nat) :
    hostRead addr size s = respond .notAddressed s := by
  simp only [hostRead, h]

theorem hostRead_busError {s : State} {off size : Nat} {c : BusCause} (hoff : off < 32)
    (h : checkAccess off size = .error c) : hostRead (s.cfg.windowBase + off) size s = respond (.busError c) s := by
  simp only [hostRead, windowOffset_add _ hoff, h]

/-! ### A write, clause by clause (20_memory.md R55) -/

theorem hostWrite_outside {s : State} {addr : Nat} (h : windowOffset s.cfg addr = none) (lanes : List Byte) :
    hostWrite addr lanes s = .next (respond .notAddressed s) := by
  simp only [hostWrite, h]

theorem hostWrite_busError {s : State} {off : Nat} {lanes : List Byte} {c : BusCause} (hoff : off < 32)
    (h : checkAccess off lanes.length = .error c) :
    hostWrite (s.cfg.windowBase + off) lanes s = .next (respond (.busError c) s) := by
  simp only [hostWrite, windowOffset_add _ hoff, h]

/-- What a 4-byte write of a word does at each register (20_memory.md R55): the counterpart of `readReg`. -/
def writeReg (r : Reg) (v : Word) (s : State) : Result :=
  match r with
  | .arg0 => .next { respond .ack s with arg0 := v }
  | .arg1 => .next { respond .ack s with arg1 := v }
  | .arg2 => .next { respond .ack s with arg2 := v }
  | .cmd => issueWord v (respond .ack s)
  | .status => .next (respond (.busError .readOnly) s)
  | .result => .next (respond (.busError .readOnly) s)

theorem hostWrite_regAddr (r : Reg) {lanes : List Byte} (hl : lanes.length = 4) (s : State) :
    hostWrite (regAddr s.cfg r) lanes s = writeReg r (wordOfLanes lanes) s := by
  simp only [hostWrite, windowOffset_regAddr, hl, checkAccess_offsetOf]
  cases r <;> rfl

/-- A CMD write while busy is dropped, whatever the word (70_reset_and_hazards.md R241). -/
theorem issueWord_busy {s : State} (hb : s.busy = true) (w : Word) : issueWord w s = .next (dropCommand s) := by
  rcases issueWord_cases w s with ⟨-, h⟩ | ⟨hb', -⟩ | ⟨hb', -⟩
  · exact h
  · simp [hb] at hb'
  · simp [hb] at hb'

/-- Only four lanes decode to a command, and they do so by the word they carry (30_encoding.md R70). -/
theorem decodeBytes_ok {lanes : List Byte} {i : Instr} (h : decodeBytes lanes = .ok i) :
    lanes.length = 4 ∧ decode (wordOfLanes lanes) = .ok i := by
  unfold decodeBytes at h
  split at h
  · exact ⟨‹_›, h⟩
  · cases h

/-! ### One step on a host access -/

/-- Settles O24: the read is an answer and nothing else, and each clause of MemRead says which. -/
theorem readFollowsMemRead : Obligations.ReadFollowsMemRead := by
  intro s off n rest hoff hev
  obtain ⟨r, hr⟩ := hostRead_eq_respond (s.cfg.windowBase + off) n { s with events := rest }
  have answer {r' : Response}
      (h : hostRead (s.cfg.windowBase + off) n { s with events := rest } = respond r' { s with events := rest }) :
      r = r' := congrArg State.response (hr.symm.trans h)
  have register (g : Reg) : n = 4 → off = offsetOf g → r = .data (lanesOfWord (readReg g s)) := by
    rintro rfl rfl
    exact answer (hostRead_regAddr g _)
  refine ⟨r, by rw [step_cons hev, deliver, hr]; rfl, ?_, ?_,
    register .arg0, register .arg1, register .arg2, register .cmd, register .status, register .result, ?_⟩
  · exact fun hn => answer (hostRead_busError hoff (checkAccess_width off hn))
  · rintro rfl hm
    exact answer (hostRead_busError hoff (checkAccess_misaligned hm))
  · rintro rfl hres
    exact answer (hostRead_busError hoff (checkAccess_reserved hres))

/-- Settles O25, clause by clause of MemWrite. -/
theorem writeFollowsMemWrite : Obligations.WriteFollowsMemWrite := by
  intro s off lanes rest hoff hev
  rw [step_cons hev]
  have register (g : Reg) (hl : lanes.length = 4) : off = offsetOf g →
      hostWrite (s.cfg.windowBase + off) lanes { s with events := rest } =
        writeReg g (wordOfLanes lanes) { s with events := rest } := by
    rintro rfl
    exact hostWrite_regAddr g hl _
  refine ⟨fun hn => ?_, fun hl hm => ?_, register .arg0, register .arg1, register .arg2, register .cmd,
    fun hl hro => ?_, fun hl hres => ?_⟩
  · exact hostWrite_busError hoff (checkAccess_width off hn)
  · exact hostWrite_busError hoff (hl ▸ checkAccess_misaligned hm)
  · exact hro.elim (register .status hl) (register .result hl)
  · exact hostWrite_busError hoff (hl ▸ checkAccess_reserved hres)

/-- Settles O28: an address outside the window has no offset in it. -/
theorem accessOutsideWindowIsIgnored : Obligations.AccessOutsideWindowIsIgnored := by
  intro s addr rest h
  have hnone := windowOffset_outside h
  refine ⟨fun n hev => ?_, fun lanes hev => ?_⟩
  · exact (step_cons hev).trans (congrArg _ (hostRead_outside (s := { s with events := rest }) hnone n))
  · exact (step_cons hev).trans (hostWrite_outside (s := { s with events := rest }) hnone lanes)

/-- Settles O4: four lanes at CMD's offset are issued as their word, and the word is the command's. -/
theorem stepRunsDecodedCommand : Obligations.StepRunsDecodedCommand := by
  intro s i lanes rest hev hdec
  obtain ⟨hl, hword⟩ := decodeBytes_ok hdec
  calc step s = issueWord (wordOfLanes lanes) { s with events := rest, response := .ack } :=
        (step_cons hev).trans (hostWrite_regAddr .cmd hl { s with events := rest })
    _ = exec i { s with events := rest, response := .ack } := by simp only [issueWord, hword]

/-- Settles O5, by the step's equations for a pending event, for none, and for the engine in IDLE. -/
theorem stepDeliversTheNextEvent : Obligations.StepDeliversTheNextEvent :=
  fun _ => ⟨fun _ _ => step_cons, rfl, step_nil, engineStep_idle⟩

/-- Settles O16, by what an access can do: a CMD write is dropped, and no other access writes any of these. -/
theorem hostAccessLeavesCommandAlone : Obligations.HostAccessLeavesCommandAlone := by
  intro s t e rest hev ha hb h
  rw [step_cons hev] at h
  rcases deliver_access_cases { s with events := rest } ha with
    ⟨r, he⟩ | ⟨v, -, he⟩ | ⟨v, -, he⟩ | ⟨v, -, he⟩ | ⟨w, -, he⟩ <;> rw [he] at h
  iterate 4 (cases h; exact ⟨rfl, rfl, rfl, rfl, rfl, .inl rfl, hb, rfl, rfl⟩)
  rw [issueWord_busy (s := respond .ack { s with events := rest }) hb] at h
  cases h
  exact ⟨rfl, rfl, rfl, rfl, rfl, .inr (Status.overrun_eq _), (Status.busy_overrun _).trans hb,
    Status.done_overrun _, Status.err_overrun _⟩

/-! ### RESULT and STATUS between two commands (20_memory.md R57) -/

/-- In IDLE every event but a reset and a CMD write leaves RESULT, STATUS, the phase and WINDOW_BASE. -/
theorem deliver_idle_keeps {s t : State} {e : Event} (hp : s.phase = .idle) (hreset : e ≠ .reset)
    (hcmd : e.writesReg s.cfg .cmd = false) (h : deliver e s = .next t) :
    t.result = s.result ∧ t.status = s.status ∧ t.phase = .idle ∧ t.cfg = s.cfg := by
  by_cases ha : e.isAccess = true
  · rcases deliver_access_cases s ha with ⟨r, he⟩ | ⟨v, -, he⟩ | ⟨v, -, he⟩ | ⟨v, -, he⟩ | ⟨w, hw, -⟩
    iterate 4 (rw [he] at h; cases h; exact ⟨rfl, rfl, hp, rfl⟩)
    simp [hw] at hcmd
  · cases e with
    | read | write => exact absurd rfl ha
    | engine => cases (engineStep_idle hp).symm.trans h; exact ⟨rfl, rfl, hp, rfl⟩
    | reset => exact absurd rfl hreset

/-- Along any run of such events, by induction on them. -/
theorem run_idle_keeps {rest : List Event} {u : State} (es : List Event) : ∀ s : State, s.phase = .idle →
    s.events = es ++ rest → (∀ e, e ∈ es → e ≠ .reset ∧ e.writesReg s.cfg .cmd = false) →
    Host.Core.run Sys2Proof.core es.length s = .next u →
    u.result = s.result ∧ u.status = s.status ∧ u.phase = .idle ∧ u.cfg = s.cfg ∧ u.events = rest := by
  induction es with
  | nil => intro s hp hev _ hrun; cases hrun; exact ⟨rfl, rfl, hp, rfl, hev⟩
  | cons e es ih =>
    intro s hp hev hes hrun
    obtain ⟨t, ht, hrun⟩ := run_succ_inv hrun
    have htev : t.events = es ++ rest := by rw [step_events ht, hev]; rfl
    obtain ⟨⟨hreset, hcmd⟩, hes⟩ := List.forall_mem_cons.1 hes
    rw [step_cons hev] at ht
    obtain ⟨hres, hst, hp, hcfg⟩ := deliver_idle_keeps (s := { s with events := es ++ rest }) hp hreset hcmd ht
    obtain ⟨hres', hst', hp', hcfg', hev'⟩ := ih t hp htev (by rwa [hcfg]) hrun
    exact ⟨hres'.trans hres, hst'.trans hst, hp', hcfg'.trans hcfg, hev'⟩

/-- A run of j + k steps to a next state passes through the state its first j steps reach. -/
theorem run_add_inv {k : Nat} {u : State} : ∀ (j : Nat) (s : State),
    Host.Core.run Sys2Proof.core (j + k) s = .next u →
    ∃ t, Host.Core.run Sys2Proof.core j s = .next t ∧ Host.Core.run Sys2Proof.core k t = .next u
  | 0, s, h => ⟨s, rfl, by rwa [Nat.zero_add] at h⟩
  | j + 1, s, h => by
    rw [Nat.succ_add] at h
    obtain ⟨m, hm, h⟩ := run_succ_inv h
    obtain ⟨t, ht, h⟩ := run_add_inv j m h
    exact ⟨t, (run_succ j hm).trans ht, h⟩

/-- A pending 4-byte read of a register answers its lanes (20_memory.md R54). -/
theorem step_read_response {s t : State} {r : Reg} {rest : List Event}
    (hev : s.events = .read (regAddr s.cfg r) 4 :: rest) (h : step s = .next t) :
    t.response = .data (lanesOfWord (readReg r s)) := by
  rw [step_cons hev, deliver, hostRead_regAddr r { s with events := rest }] at h
  cases h
  cases r <;> rfl

/-- Settles O34: a last read of RESULT is answered from the state before it, which the events before left RESULT in. -/
theorem resultStaysUntilTheNextCommand : Obligations.ResultStaysUntilTheNextCommand := by
  intro s es rest u hp hev hes hrun
  obtain ⟨hres, hst, hp', -, hev'⟩ := run_idle_keeps es s hp hev hes hrun
  refine ⟨hres, hst, hp', hev', fun hlast => ?_⟩
  obtain ⟨before, rfl⟩ := List.getLast?_eq_some_iff.1 hlast
  rw [List.length_append] at hrun
  obtain ⟨t, hbefore, hread⟩ := run_add_inv before.length s hrun
  obtain ⟨htres, -, -, htcfg, htev⟩ := run_idle_keeps before s hp (hev.trans (List.append_assoc ..))
    (fun e he => hes e (List.mem_append_left _ he)) hbefore
  obtain ⟨u', hu, hnil⟩ := run_succ_inv hread
  cases hnil
  rw [← htcfg] at htev
  exact htres ▸ step_read_response (r := .result) htev hu

end Sys2Proof.Machine
end

/-! ## Command words, what they answer, and what that depends on (30_encoding.md) -/

section

namespace Sys2Proof.Machine

/-! ### Decoder and encoder (30_encoding.md R70, R71, R73) -/

theorem decode_encode (i : Instr) : decode (encode i) = .ok i := by
  cases i <;> rfl

/-- The decoder answers a command for that command's word and for no other (30_encoding.md R71). -/
theorem decode_eq_ok_iff {w : Word} {i : Instr} : decode w = .ok i ↔ w = encode i :=
  ⟨encode_of_decode, fun h => h ▸ decode_encode i⟩

/-- Settles O3: four lanes decode as the word they carry, and lanes and words determine each other. -/
theorem decodeBytesIffEncodeBytes : Obligations.DecodeBytesIffEncodeBytes := by
  intro i l _
  constructor
  · intro h
    obtain ⟨hl, hw⟩ := decodeBytes_ok h
    rw [encodeBytes, ← decode_eq_ok_iff.1 hw, lanesOfWord_wordOfLanes_of_length hl]
  · rintro rfl
    rw [encodeBytes, decodeBytes, if_pos (length_lanesOfWord _), wordOfLanes_lanesOfWord, decode_encode]

theorem opcField_toNat (w : Word) : (opcField w).toNat = w.toNat % 16 := by
  simp [opcField, BitVec.extractLsb'_toNat]

theorem rsvField_toNat (w : Word) : (rsvField w).toNat = w.toNat / 16 := by
  have := w.isLt
  simp only [rsvField, BitVec.extractLsb'_toNat, Nat.shiftRight_eq_div_pow]
  omega

theorem legal_iff (w : Word) : legal w = true ↔ w.toNat / 16 = 0 ∧ 1 ≤ w.toNat % 16 ∧ w.toNat % 16 ≤ 5 := by
  simp only [legal, Bool.and_eq_true, Bool.or_eq_true, decide_eq_true_eq, ← BitVec.toNat_inj, opcField_toNat,
    rsvField_toNat, BitVec.toNat_ofNat]
  omega

theorem legal_iff_word (w : Word) : legal w = true ↔
    w = 0x00000001#32 ∨ w = 0x00000002#32 ∨ w = 0x00000003#32 ∨ w = 0x00000004#32 ∨ w = 0x00000005#32 := by
  rw [legal_iff]
  simp only [← BitVec.toNat_inj, BitVec.toNat_ofNat]
  omega

/-- The opcode map has a row for each of the five words, and no other (30_encoding.md R71). -/
theorem exists_encode_iff (w : Word) : (∃ i, w = encode i) ↔
    w = 0x00000001#32 ∨ w = 0x00000002#32 ∨ w = 0x00000003#32 ∨ w = 0x00000004#32 ∨ w = 0x00000005#32 := by
  constructor
  · rintro ⟨i, rfl⟩
    cases i <;> decide
  · rintro (h | h | h | h | h)
    · exact ⟨.mulmod, h⟩
    · exact ⟨.powmod, h⟩
    · exact ⟨.sprp, h⟩
    · exact ⟨.tdiv, h⟩
    · exact ⟨.isprime, h⟩

/-- Settles O2: the test by fields, by words, and by the decoder, which answers exactly the encodings. -/
theorem exactlyFiveWordsAreLegal : Obligations.ExactlyFiveWordsAreLegal := by
  intro w
  refine ⟨legal_iff w, legal_iff_word w, ?_⟩
  simp only [decode_eq_ok_iff]
  exact (legal_iff_word w).trans (exists_encode_iff w).symm

/-- Settles O1: the five encodings, and each sample by the field that refuses it. -/
theorem tableWordsDecode : Obligations.TableWordsDecode :=
  ⟨decode_encode .mulmod, decode_encode .powmod, decode_encode .sprp, decode_encode .tdiv, decode_encode .isprime,
    rfl, rfl, rfl, rfl, rfl⟩

/-! ### Acceptance (30_encoding.md R76, R77) -/

/-- An idle block with no operand error accepts the command. -/
theorem exec_accepted {s : State} {i : Instr} (hb : s.busy = false) (ho : s.operandError i = false) :
    exec i s = .next (latchOf i { s with cmd := encode i }) := by
  rcases exec_idle i hb with ⟨ho', -⟩ | ⟨-, h⟩
  · simp [ho] at ho'
  · exact h

theorem operandError_sprp_iff (s : State) :
    s.operandError .sprp = true ↔ s.arg0 = 0#32 ∧ 2 < s.arg1.toNat ∧ s.arg1.toNat % 2 = 1 := by
  simp [State.operandError, lowBit_iff, BitVec.lt_def, and_assoc]

/-- Settles O7: each command, accepted, leaves its latch. -/
theorem acceptanceLatchesOperands : Obligations.AcceptanceLatchesOperands := by
  intro s hb
  have modulus (h : s.arg2 ≠ 0#32) : decide (s.arg2 = 0#32) = false := decide_eq_false h
  refine ⟨fun h => ?_, fun h => ?_, fun h => ?_, ?_, ?_⟩
  · exact exec_accepted (i := .mulmod) hb (modulus h)
  · exact exec_accepted (i := .powmod) hb (modulus h)
  · exact exec_accepted (i := .sprp) hb (by rwa [← Bool.not_eq_true, operandError_sprp_iff])
  · exact exec_accepted (i := .tdiv) hb rfl
  · exact exec_accepted (i := .isprime) hb rfl

theorem Datapath.afterPow_of_powmod {d : Datapath} (h : d.op = opOf .powmod) (r : Word) : d.afterPow r = r := if_pos h

theorem Datapath.afterTest_of_sprp {d : Datapath} (h : d.op = opOf .sprp) (v : Bool) : d.afterTest v = boolWord v :=
  if_pos h

theorem Datapath.afterFilter_of_tdiv {d : Datapath} (h : d.op = opOf .tdiv) (v : Verdict) : d.afterFilter v = v.word :=
  if_pos h

/-- Past the filter, `is_prime` is the verdict, and for a survivor all three bases (42_primality.md R164, R165). -/
theorem Datapath.afterFilter_of_not_tdiv {d : Datapath} (h : d.op ≠ opOf .tdiv) :
    d.afterFilter (trialDiv d.n) = boolWord (isPrime d.n) := by
  simp only [Datapath.afterFilter, if_neg h, isPrime]
  cases trialDiv d.n <;> rfl

/-- What a command will answer is its function of the operands it latched (30_encoding.md R79). -/
theorem latchOf_pending (i : Instr) (s : State) :
    (latchOf i s).dp.pending (latchOf i s).phase = s.answer i := by
  cases i with
  | mulmod => rfl
  | powmod => exact Datapath.afterPow_of_powmod (d := (latchPowmod s).dp) rfl _
  | sprp => exact Datapath.afterTest_of_sprp (d := (latchSprp s).dp) rfl _
  | tdiv => exact Datapath.afterFilter_of_tdiv (d := (latchTdiv s).dp) rfl _
  | isprime => exact Datapath.afterFilter_of_not_tdiv (d := (latchIsprime s).dp) opOf_tdiv_ne_isprime.symm

/-- The measure starts within the table of 70_reset_and_hazards.md R246. -/
theorem latchOf_stepsLeft (i : Instr) (s : State) :
    (latchOf i s).dp.stepsLeft (latchOf i s).phase ≤ stepBound i := by
  cases i with
  | powmod => exact Nat.add_le_add_right (bitlen_le s.arg1.isLt) 2
  | mulmod | sprp | tdiv | isprime => exact le_refl _

/-- Settles O17: acceptance leaves the latch, which writes no ARG register and not RESULT. -/
theorem acceptedAnswerIsTheFunction : Obligations.AcceptedAnswerIsTheFunction := by
  intro s i hb ho
  have hpend := latchOf_pending i { s with cmd := encode i }
  have hsteps := latchOf_stepsLeft i { s with cmd := encode i }
  obtain ⟨d, p, -, hop, hlatch⟩ := latchOf_eq i { s with cmd := encode i }
  rw [hlatch] at hpend hsteps
  exact ⟨_, (exec_accepted hb ho).trans (congrArg _ hlatch), Status.busy_accepted, hpend, hsteps, hop,
    rfl, rfl, rfl, rfl⟩

/-! ### In flight, whatever event comes next (30_encoding.md R78, R79) -/

/-- The command in flight in s is still in flight in t with the answer it had to come, or has completed in t with that
answer. -/
abbrev State.KeepsAnswer (s t : State) : Prop :=
  (t.busy = true ∧ t.dp.pending t.phase = s.dp.pending s.phase ∧ t.result = s.result ∧
      t.dp.stepsLeft t.phase ≤ s.dp.stepsLeft s.phase) ∨
  (t.busy = false ∧ t.done = true ∧ t.err = 0#4 ∧ t.ovr = s.ovr ∧ t.phase = .idle ∧
      t.result = s.dp.pending s.phase)

/-- BUSY = 1 means a phase that is not IDLE (10_state.md R27). -/
theorem phase_ne_idle_of_busy {s : State} (h : s.Inv) (hb : s.busy = true) : s.phase ≠ .idle := by
  obtain ⟨-, ⟨-, -, hidle, -⟩, -⟩ := h
  intro hp
  simp [hidle.1 hp] at hb

theorem engineStep_keepsAnswer {s : State} (h : s.Inv) (hb : s.busy = true) :
    ∃ t, engineStep s = .next t ∧ s.KeepsAnswer t := by
  have hp := phase_ne_idle_of_busy h hb
  obtain ⟨-, -, hok⟩ := h
  rcases engineStep_advances hok hp with ⟨d, p, he, -, -, hpend, hsteps⟩ | he
  · exact ⟨_, he, .inl ⟨hb, hpend, rfl, hsteps.le⟩⟩
  · exact ⟨_, he, .inr ⟨Status.busy_completed _, Status.done_completed _, Status.err_completed _,
      Status.ovr_completed _, rfl, rfl⟩⟩

/-- A host access always answers (70_reset_and_hazards.md R245). -/
theorem deliver_access_next {e : Event} (s : State) (ha : e.isAccess = true) : ∃ t, deliver e s = .next t := by
  rcases deliver_access_cases s ha with ⟨r, he⟩ | ⟨v, -, he⟩ | ⟨v, -, he⟩ | ⟨v, -, he⟩ | ⟨w, -, he⟩
  iterate 4 exact ⟨_, he⟩
  rcases issueWord_cases w (respond .ack s) with ⟨-, hw⟩ | ⟨-, c, -, hw⟩ | ⟨-, i, -, -, hw⟩
  all_goals exact ⟨_, he.trans hw⟩

/-- Settles O18: the engine's turn advances the command, and a host access does not touch it. -/
theorem inFlightAnswerIsKept : Obligations.InFlightAnswerIsKept := by
  intro s h hb hreset
  cases hev : s.events with
  | nil => rw [step_nil hev]; exact engineStep_keepsAnswer h hb
  | cons e rest =>
    by_cases ha : e.isAccess = true
    · obtain ⟨t, ht⟩ := deliver_access_next { s with events := rest } ha
      have hstep := (step_cons hev).trans ht
      obtain ⟨hdp, hphase, hres, -, -, -, hbusy, -⟩ := hostAccessLeavesCommandAlone s t e rest hev ha hb hstep
      exact ⟨t, hstep, .inl ⟨hbusy, by rw [hdp, hphase], hres, by rw [hdp, hphase]⟩⟩
    · cases e with
      | read | write => exact absurd rfl ha
      | engine => rw [step_cons hev]; exact engineStep_keepsAnswer (s := { s with events := rest }) h hb
      | reset => simp [hev] at hreset

/-- O18 for the state a step is known to answer. -/
theorem step_keepsAnswer {s t : State} (h : s.Inv) (hb : s.busy = true) (hev : ∀ e, e ∈ s.events → e ≠ .reset)
    (ht : step s = .next t) : s.KeepsAnswer t := by
  obtain ⟨t', ht', hk⟩ := inFlightAnswerIsKept s h hb fun hreset => hev _ (List.mem_of_head? hreset) rfl
  cases ht'.symm.trans ht
  exact hk

/-- The block stays busy for k steps, and stands busy at both ends. -/
abbrev State.BusyFor (k : Nat) (s : State) : Prop :=
  ∀ j, j ≤ k → ∃ w : State, Host.Core.run Sys2Proof.core j s = .next w ∧ w.busy = true

theorem State.BusyFor.busy {s : State} {k : Nat} (h : s.BusyFor k) : s.busy = true := by
  obtain ⟨w, hw, hb⟩ := h 0 (Nat.zero_le k)
  cases hw
  exact hb

theorem State.BusyFor.step {s t : State} {k : Nat} (h : s.BusyFor (k + 1)) (ht : step s = .next t) : t.BusyFor k := by
  intro j hj
  rw [← run_succ j ht]
  exact h (j + 1) (Nat.succ_le_succ hj)

theorem issueWord_encode (i : Instr) (s : State) : issueWord (encode i) s = exec i s := by
  simp only [issueWord, decode_encode]

/-- Along any run without reset, by induction on the steps the block stays busy: where the next step leaves BUSY = 0, it
delivers the answer that was to come at the start. -/
theorem run_inFlight_answer {u : State} (k : Nat) : ∀ t : State, t.Inv → (∀ e, e ∈ t.events → e ≠ .reset) →
    t.BusyFor k → Host.Core.run Sys2Proof.core (k + 1) t = .next u → u.busy = false →
    u.result = t.dp.pending t.phase ∧ u.done = true ∧ u.err = 0#4 ∧ u.phase = .idle := by
  induction k with
  | zero =>
    intro t h hev hbusy hrun hu
    obtain ⟨m, hm, hrun⟩ := run_succ_inv hrun
    cases hrun
    rcases step_keepsAnswer h hbusy.busy hev hm with ⟨hb, -⟩ | ⟨-, hd, he, -, hp, hres⟩
    · simp [hb] at hu
    · exact ⟨hres, hd, he, hp⟩
  | succ k ih =>
    intro t h hev hbusy hrun hu
    obtain ⟨m, hm, hrun⟩ := run_succ_inv hrun
    have hbusy' := hbusy.step hm
    have hev' : ∀ e, e ∈ m.events → e ≠ .reset := by
      rw [step_events hm]
      exact fun e he => hev e (List.mem_of_mem_tail he)
    have hend := ih m (everyStepKeepsTheInvariant t m h hm) hev' hbusy' hrun hu
    rcases step_keepsAnswer h hbusy.busy hev hm with ⟨-, hpend, -⟩ | ⟨hb, -⟩
    · rwa [hpend] at hend
    · simp [hbusy'.busy] at hb

theorem latchOf_events (i : Instr) (s : State) : (latchOf i s).events = s.events := by
  cases i <;> rfl

/-- Settles O20: acceptance leaves an in-flight command whose answer to come is its function of the operands. -/
theorem answerUnderEveryInterleaving : Obligations.AnswerUnderEveryInterleaving := by
  intro s t u i k h hb ho hev hexec hbusy hrun hu
  obtain ⟨t', ht', -, hpend, -⟩ := acceptedAnswerIsTheFunction s i hb ho
  cases ht'.symm.trans hexec
  rw [← hpend]
  refine run_inFlight_answer k t ?_ ?_ hbusy hrun hu
  · exact issueWord_inv (w := encode i) h ((issueWord_encode i s).trans hexec)
  · cases (exec_accepted hb ho).symm.trans hexec
    rwa [latchOf_events]

/-! ### What the engine's move depends on (30_encoding.md R77, R79) -/

/-- The same answer with another next state. -/
def mapNext (f : State → State) : Result → Result
  | .next s => .next (f s)
  | .fault r => .fault r
  | .refused r => .refused r

/-- Block t after the move that took another block to s': the same completion, or the same datapath and phase to go on
with. Every other register is t's own. -/
def State.follow (t s' : State) : State :=
  if s'.phase = .idle then complete s'.result t else { t with dp := s'.dp, phase := s'.phase }

@[simp] theorem follow_complete (t s : State) (v : Word) : t.follow (complete v s) = complete v t := rfl

theorem follow_goesOn (t s : State) (d : Datapath) {p : Phase} (hp : p ≠ .idle) :
    t.follow { s with dp := d, phase := p } = { t with dp := d, phase := p } := if_neg hp

/-- A move that stays in its phase, which is not IDLE. -/
theorem stays_follow {s t : State} (hph : t.phase = s.phase) (hp : s.phase ≠ .idle) (d : Datapath) :
    { t with dp := d } = t.follow { s with dp := d } := by
  rw [follow_goesOn t s d hp, ← hph]

section

variable {s t : State} (hdp : t.dp = s.dp)
include hdp

theorem enterWitness_follow (i : Nat) : enterWitness i t = mapNext t.follow (enterWitness i s) := by
  unfold enterWitness
  rw [hdp]
  split <;> rfl

theorem spReturn_follow (v : Bool) : spReturn v t = mapNext t.follow (spReturn v s) := by
  unfold spReturn
  simp only [hdp, enterWitness_follow hdp]
  split_ifs <;> rfl

theorem tdReturn_follow (v : Verdict) : tdReturn v t = mapNext t.follow (tdReturn v s) := by
  unfold tdReturn
  simp only [hdp, enterWitness_follow hdp]
  split_ifs
  · rfl
  · cases v <;> rfl

theorem pmReturn_follow : pmReturn t = t.follow (pmReturn s) := by
  unfold pmReturn
  rw [hdp]
  split_ifs <;> rfl

theorem stepMm_follow : stepMm t = mapNext t.follow (stepMm s) := by
  unfold stepMm
  rw [hdp]
  split_ifs <;> rfl

theorem stepPmInit_follow : stepPmInit t = mapNext t.follow (stepPmInit s) := by
  unfold stepPmInit
  rw [hdp]
  split_ifs <;> rfl

theorem spSetup_follow : spSetup t = t.follow (spSetup s) := by
  unfold spSetup
  rw [hdp]
  rfl

theorem stepSpCheck_follow : stepSpCheck t = mapNext t.follow (stepSpCheck s) := by
  unfold stepSpCheck
  simp only [hdp, spReturn_follow hdp, spSetup_follow hdp]
  split_ifs <;> rfl

theorem stepSpTest_follow : stepSpTest t = mapNext t.follow (stepSpTest s) := by
  unfold stepSpTest
  simp only [hdp, spReturn_follow hdp]
  split_ifs <;> rfl

theorem stepTdPre_follow : stepTdPre t = mapNext t.follow (stepTdPre s) := by
  unfold stepTdPre
  simp only [hdp, tdReturn_follow hdp]
  split_ifs <;> rfl

variable (hph : t.phase = s.phase) (hp : s.phase ≠ .idle)
include hph hp

theorem stepPmLoop_follow : stepPmLoop t = mapNext t.follow (stepPmLoop s) := by
  unfold stepPmLoop
  simp only [hdp, pmReturn_follow hdp, stays_follow hph hp]
  split_ifs <;> rfl

theorem stepSpSq_follow : stepSpSq t = mapNext t.follow (stepSpSq s) := by
  unfold stepSpSq
  simp only [hdp, spReturn_follow hdp, stays_follow hph hp]
  split_ifs <;> rfl

theorem stepTdLoop_follow : stepTdLoop t = mapNext t.follow (stepTdLoop s) := by
  unfold stepTdLoop
  simp only [hdp, tdReturn_follow hdp, stays_follow hph hp]
  split_ifs <;> rfl

/-- The engine makes the same move in two blocks with the same phase and hidden registers. -/
theorem engineStep_follow : engineStep t = mapNext t.follow (engineStep s) := by
  unfold engineStep
  rw [hph]
  split
  · contradiction
  · exact stepMm_follow hdp
  · exact stepPmInit_follow hdp
  · exact stepPmLoop_follow hdp hph hp
  · exact stepSpCheck_follow hdp
  · exact stepSpTest_follow hdp
  · exact stepSpSq_follow hdp hph hp
  · exact stepTdPre_follow hdp
  · exact stepTdLoop_follow hdp hph hp

end

/-- Settles O21: the other block follows the move, whether it goes on or completes. -/
theorem engineReadsOnlyItsDatapath : Obligations.EngineReadsOnlyItsDatapath := by
  intro s t s' hp hph hdp h
  refine ⟨t.follow s', by rw [engineStep_follow hdp hph hp, h]; rfl, ?_⟩
  rcases engineStep_moves hp h with ⟨d, p, hp', rfl⟩ | ⟨v, rfl⟩
  · rw [follow_goesOn t s d hp']
    exact ⟨rfl, fun _ => ⟨rfl, rfl, rfl⟩, fun hi => absurd hi hp'⟩
  · rw [follow_complete]
    exact ⟨rfl, fun hi => absurd rfl hi, fun _ => rfl⟩

/-! ### STEP_CYCLES (00_scope.md R9, 70_reset_and_hazards.md R250) -/

/-- The block with another STEP_CYCLES. -/
def State.withStepCycles (c : Nat) (s : State) : State := { s with cfg := { s.cfg with stepCycles := c } }

theorem engineStep_withStepCycles (c : Nat) (s : State) :
    engineStep (s.withStepCycles c) = mapNext (State.withStepCycles c) (engineStep s) := by
  by_cases hp : s.phase = .idle
  · rw [engineStep_idle hp, engineStep_idle (s := s.withStepCycles c) hp, mapNext]
  rw [engineStep_follow (s := s) (t := s.withStepCycles c) rfl rfl hp]
  cases h : engineStep s with
  | next t =>
    rcases engineStep_moves hp h with ⟨d, p, hp', rfl⟩ | ⟨v, rfl⟩
    · exact congrArg _ (follow_goesOn (s.withStepCycles c) s d hp')
    · rfl
  | fault r => rfl
  | refused r => rfl

theorem hostRead_withStepCycles (addr size c : Nat) (s : State) :
    hostRead addr size (s.withStepCycles c) = (hostRead addr size s).withStepCycles c := by
  have hoff : windowOffset (s.withStepCycles c).cfg addr = windowOffset s.cfg addr := rfl
  unfold hostRead
  rw [hoff]
  split
  · rfl
  split
  · rfl
  next r _ => cases r <;> rfl

/-- An issue, when what follows it does not look at STEP_CYCLES either (30_encoding.md R75). -/
theorem issue_withStepCycles {w : Word} {go : State → State} {c : Nat}
    (hgo : ∀ u : State, go (u.withStepCycles c) = (go u).withStepCycles c) (s : State) :
    issue w go (s.withStepCycles c) = (issue w go s).withStepCycles c := by
  have hb : (s.withStepCycles c).busy = s.busy := rfl
  unfold issue
  rw [hb]
  split
  · rfl
  · exact hgo { s with cmd := w }

theorem exec_withStepCycles (i : Instr) (c : Nat) (s : State) :
    exec i (s.withStepCycles c) = mapNext (State.withStepCycles c) (exec i s) := by
  cases i <;> refine congrArg Host.Outcome.next (issue_withStepCycles (fun u => ?_) s)
  case tdiv | isprime => rfl
  case mulmod | powmod | sprp =>
    -- the operand error of u reported, or u's latch
    rw [apply_ite (State.withStepCycles c)]
    rfl

theorem issueWord_withStepCycles (w : Word) (c : Nat) (s : State) :
    issueWord w (s.withStepCycles c) = mapNext (State.withStepCycles c) (issueWord w s) := by
  unfold issueWord
  split
  · exact exec_withStepCycles _ c s
  · exact congrArg Host.Outcome.next (issue_withStepCycles (go := cmdError .illegalCmd) (fun _ => rfl) s)

theorem hostWrite_withStepCycles (addr : Nat) (lanes : List Byte) (c : Nat) (s : State) :
    hostWrite addr lanes (s.withStepCycles c) = mapNext (State.withStepCycles c) (hostWrite addr lanes s) := by
  have hoff : windowOffset (s.withStepCycles c).cfg addr = windowOffset s.cfg addr := rfl
  unfold hostWrite
  rw [hoff]
  split
  · rfl
  split
  iterate 4 (· rfl)
  · exact issueWord_withStepCycles _ c (respond .ack s)
  · rfl
  · rfl

theorem deliver_withStepCycles (e : Event) (c : Nat) (s : State) :
    deliver e (s.withStepCycles c) = mapNext (State.withStepCycles c) (deliver e s) := by
  cases e with
  | read addr size => exact congrArg Host.Outcome.next (hostRead_withStepCycles addr size c s)
  | write addr lanes => exact hostWrite_withStepCycles addr lanes c s
  | engine => exact engineStep_withStepCycles c s
  | reset => rfl

/-- Settles O22: the event a step takes is the same, and none of them looks at STEP_CYCLES. -/
theorem stepCyclesChangeNothing : Obligations.StepCyclesChangeNothing := by
  intro s t c h
  suffices hcomm : step (s.withStepCycles c) = mapNext (State.withStepCycles c) (step s) by
    rw [h] at hcomm; exact hcomm
  cases hev : s.events with
  | nil => rw [step_nil hev, step_nil (s := s.withStepCycles c) hev, engineStep_withStepCycles]
  | cons e rest =>
    rw [step_cons hev, step_cons (s := s.withStepCycles c) hev]
    exact deliver_withStepCycles e c { s with events := rest }

end Sys2Proof.Machine
end

/-! ## The modular exponentiation engine (40_modexp.md) -/

section

namespace Sys2Proof.Machine

/-! ### The laws of the functions (40_modexp.md R102, R115) -/

@[simp] theorem zext64_toNat (v : Word) : (zext64 v).toNat = v.toNat :=
  BitVec.toNat_setWidth_of_le (by decide)

theorem word_mul_le (a b : Word) : a.toNat * b.toNat ≤ 2 ^ 64 - 2 ^ 33 + 1 :=
  calc a.toNat * b.toNat ≤ (2 ^ 32 - 1) * (2 ^ 32 - 1) :=
        Nat.mul_le_mul (Nat.le_sub_one_of_lt a.isLt) (Nat.le_sub_one_of_lt b.isLt)
    _ = 2 ^ 64 - 2 ^ 33 + 1 := by norm_num

/-- The product is exact: it fits in 64 bits (R102(a)). -/
theorem zext64_mul_toNat (a b : Word) : (zext64 a * zext64 b).toNat = a.toNat * b.toNat := by
  rw [BitVec.toNat_mul, zext64_toNat, zext64_toNat]
  exact Nat.mod_eq_of_lt (lt_of_le_of_lt (word_mul_le a b) (by norm_num))

theorem mulmod_comm (a b m : Word) : mulmod a b m = mulmod b a m := by
  rw [mulmod, mulmod, BitVec.mul_comm]

theorem mulmod_mod_mod {m : Word} (hm : m ≠ 0#32) (a b : Word) : mulmod (a % m) (b % m) m = mulmod a b m := by
  apply BitVec.eq_of_toNat_eq
  rw [mulmod_toNat hm, mulmod_toNat hm, BitVec.toNat_umod, BitVec.toNat_umod, ← Nat.mul_mod]

/-- The reduced product is below m, so its truncation to 32 bits loses nothing (R102(e)). -/
theorem zext64_mulmod {m : Word} (hm : m ≠ 0#32) (a b : Word) :
    zext64 (mulmod a b m) = (zext64 a * zext64 b) % zext64 m := by
  apply BitVec.eq_of_toNat_eq
  rw [zext64_toNat, mulmod_toNat hm, BitVec.toNat_umod, zext64_mul_toNat, zext64_toNat]

/-- Settles O46: the exact product, then what reducing it modulo m gives. -/
theorem widenedMultiplyLaws : Obligations.WidenedMultiplyLaws := fun a b m hm =>
  ⟨zext64_mul_toNat a b, word_mul_le a b, mulmod_toNat hm, BitVec.lt_def.1 (mulmod_lt hm), mulmod_comm a b m,
    (mulmod_mod_mod hm a b).symm, zext64_mulmod hm a b⟩

theorem powmod_base_mod {m : Word} (hm : m ≠ 0#32) (b x : Word) : powmod (b % m) x m = powmod b x m := by
  apply BitVec.eq_of_toNat_eq
  rw [powmod_toNat hm, powmod_toNat hm, BitVec.toNat_umod, ← Nat.pow_mod]

/-- Settles O47: each law is read off the value b^x mod m. -/
theorem powmodLaws : Obligations.PowmodLaws := by
  intro b x m hm
  refine ⟨?_, powmod_toNat hm, powmod_toNat hm, (powmod_base_mod hm b x).symm⟩
  rw [powmod_toNat hm]
  exact Nat.mod_lt _ (toNat_pos_of_ne_zero hm)

/-! ### The phase rules, clause by clause (40_modexp.md R101, R111 to R113) -/

theorem engineStep_mm {s : State} (hp : s.phase = .mm) (hm : s.dp.m ≠ 0#32) :
    engineStep s = .next (complete (mulmod s.dp.acc s.dp.pw s.dp.m) s) := by
  simp only [engineStep, hp, stepMm, if_neg hm]

/-- The hidden registers PM_INIT leaves (R111). -/
def Datapath.powStart (d : Datapath) : Datapath := { d with pw := d.wb % d.m, acc := 1#32 % d.m }

/-- The hidden registers one iteration of PM_LOOP leaves (R112). -/
def Datapath.powIterate (d : Datapath) : Datapath :=
  { d with acc := if lowBit d.ex then mulmod d.acc d.pw d.m else d.acc, pw := mulmod d.pw d.pw d.m, ex := d.ex >>> 1 }

theorem engineStep_pmInit {s : State} (hp : s.phase = .pmInit) (hm : s.dp.m ≠ 0#32) :
    engineStep s = .next { s with dp := s.dp.powStart, phase := .pmLoop } := by
  simp only [engineStep, hp, stepPmInit, if_neg hm, Datapath.powStart]

theorem engineStep_pmLoop_iterate {s : State} (hp : s.phase = .pmLoop) (hx : s.dp.ex ≠ 0#32) (hm : s.dp.m ≠ 0#32) :
    engineStep s = .next { s with dp := s.dp.powIterate } := by
  simp only [engineStep, hp, stepPmLoop, if_neg hx, if_neg hm, Datapath.powIterate]

theorem engineStep_pmLoop_end {s : State} (hp : s.phase = .pmLoop) (hx : s.dp.ex = 0#32) :
    engineStep s = .next (pmReturn s) := by
  simp only [engineStep, hp, stepPmLoop, if_pos hx]

theorem pmReturn_powmod {s : State} (hop : s.dp.op = opOf .powmod) : pmReturn s = complete s.dp.acc s := if_pos hop

theorem pmReturn_handover {s : State} (hop : s.dp.op ≠ opOf .powmod) :
    pmReturn s = { s with phase := .spTest, dp := { s.dp with x := s.dp.acc } } := if_neg hop

/-- Settles O35: the rule of phase PM_INIT, its two reductions read as numbers. -/
theorem pmInitStep : Obligations.PmInitStep := fun s hp hm =>
  ⟨s.dp.wb % s.dp.m, 1#32 % s.dp.m, engineStep_pmInit hp hm, BitVec.toNat_umod, BitVec.toNat_umod⟩

theorem powIterate_acc_toNat {d : Datapath} (hm : d.m ≠ 0#32) : d.powIterate.acc.toNat =
    if d.ex.toNat % 2 = 1 then d.acc.toNat * d.pw.toNat % d.m.toNat else d.acc.toNat := by
  simp only [Datapath.powIterate, lowBit_iff, apply_ite BitVec.toNat, mulmod_toNat hm]

/-- Settles O36: the iteration, then the two returns. -/
theorem pmLoopStep : Obligations.PmLoopStep := by
  intro s hp
  refine ⟨fun hx hm => ?_, fun hx hop => ?_, fun hx hop => ?_⟩
  · exact ⟨_, _, _, engineStep_pmLoop_iterate hp hx hm, powIterate_acc_toNat hm, mulmod_toNat hm, shiftRight_one_toNat _⟩
  · exact ⟨_, (engineStep_pmLoop_end hp hx).trans (congrArg _ (pmReturn_powmod hop)), rfl, rfl, Status.busy_completed _,
      Status.done_completed _, Status.err_completed _, Status.ovr_completed _⟩
  · exact (engineStep_pmLoop_end hp hx).trans (congrArg _ (pmReturn_handover hop))

/-! ### MULMOD and POWMOD from acceptance to completion (40_modexp.md R101, R114, R116) -/

/-- A completion of a command whose latch nothing has touched since but the engine (30_encoding.md R77, R78). -/
theorem complete_latchOf_completedFrom (i : Instr) (v : Word) (s : State) :
    CompletedFrom i v s (complete v (latchOf i { s with cmd := encode i })) := by
  obtain ⟨d, p, -, -, hl⟩ := latchOf_eq i { s with cmd := encode i }
  rw [hl]
  exact ⟨rfl, rfl, Status.completed_accepted, rfl, rfl, rfl, rfl, rfl, rfl, rfl⟩

/-- Settles O10: the rule of phase MM, and MULMOD's latch, which stands in that phase. -/
theorem mulmodCompletesInOneStep : Obligations.MulmodCompletesInOneStep := by
  refine ⟨fun s hp hm => ?_, fun s hb hm => ?_⟩
  · exact ⟨_, engineStep_mm hp hm, rfl, mulmod_toNat hm, Status.busy_completed _, Status.done_completed _,
      Status.err_completed _, Status.ovr_completed _⟩
  · exact ⟨_, _, _, exec_accepted (i := .mulmod) hb (decide_eq_false hm), (nofun : Phase.mm ≠ .idle),
      engineStep_mm rfl hm, complete_latchOf_completedFrom .mulmod _ s, mulmod_toNat hm⟩

theorem bitlen_eq_zero {v : Word} (h : bitlen v = 0) : v = 0#32 := by
  by_contra hv
  have := bitlen_shift hv
  omega

theorem powIterate_acc_lt {d : Datapath} (ha : d.acc < d.m) : d.powIterate.acc < d.m := by
  unfold Datapath.powIterate
  split
  · exact mulmod_lt (ne_zero_of_lt ha)
  · exact ha

/-- The block in PM_LOOP with given hidden registers, every other register as in s. -/
def State.inPmLoop (s : State) (d : Datapath) : State := { s with dp := d, phase := .pmLoop }

/-- The engine's turns alone, from PM_LOOP: by induction on bitlen(ex), that many iterations stay in PM_LOOP, and the step
after them completes POWMOD with the value of the loop of `powmod` (R114, R116). -/
theorem run_inPmLoop {s : State} (hev : s.events = []) (k : Nat) :
    ∀ d : Datapath, d.op = opOf .powmod → d.acc < d.m → bitlen d.ex = k →
      (∀ j, j ≤ k → ∃ d', Host.Core.run Sys2Proof.core j (s.inPmLoop d) = .next (s.inPmLoop d')) ∧
      Host.Core.run Sys2Proof.core (k + 1) (s.inPmLoop d) = .next (complete (powLoop d.m 32 d.acc d.pw d.ex) s) := by
  induction k with
  | zero =>
    intro d hop ha hk
    have hx := bitlen_eq_zero hk
    have hstep : step (s.inPmLoop d) = .next (complete d.acc (s.inPmLoop d)) := by
      rw [step_nil (s := s.inPmLoop d) hev, engineStep_pmLoop_end rfl hx, pmReturn_powmod (s := s.inPmLoop d) hop]
      rfl
    refine ⟨fun j hj => ⟨d, by rw [Nat.le_zero.1 hj, run_zero]⟩, ?_⟩
    rw [run_succ 0 hstep, hx, powLoop_zero_ex]
    rfl
  | succ k ih =>
    intro d hop ha hk
    have hm := ne_zero_of_lt ha
    have hx : d.ex ≠ 0#32 := fun h => by simp [h] at hk
    have hlen : bitlen d.powIterate.ex = k := Nat.succ.inj ((bitlen_shift hx).trans hk)
    have hstep : step (s.inPmLoop d) = .next (s.inPmLoop d.powIterate) :=
      (step_nil (s := s.inPmLoop d) hev).trans (engineStep_pmLoop_iterate rfl hx hm)
    obtain ⟨hstay, hend⟩ := ih d.powIterate hop (powIterate_acc_lt ha) hlen
    refine ⟨fun j hj => ?_, ?_⟩
    · cases j with
      | zero => exact ⟨d, rfl⟩
      | succ j => rw [run_succ j hstep]; exact hstay j (Nat.le_of_succ_le_succ hj)
    · rw [run_succ _ hstep, hend, powLoop_step hm ha hx]
      rfl

/-- The engine's turns alone, from PM_INIT: one step into PM_LOOP, then the loop (R116). -/
theorem run_pmInit {s : State} (hev : s.events = []) (hp : s.phase = .pmInit) (hop : s.dp.op = opOf .powmod)
    (hm : s.dp.m ≠ 0#32) :
    (∀ j, j ≤ bitlen s.dp.ex → ∃ d, Host.Core.run Sys2Proof.core (j + 1) s = .next (s.inPmLoop d)) ∧
    Host.Core.run Sys2Proof.core (bitlen s.dp.ex + 2) s = .next (complete (powmod s.dp.wb s.dp.ex s.dp.m) s) := by
  have hstep : step s = .next (s.inPmLoop s.dp.powStart) := (step_nil hev).trans (engineStep_pmInit hp hm)
  obtain ⟨hstay, hend⟩ := run_inPmLoop hev _ s.dp.powStart hop (one_mod_lt hm) rfl
  exact ⟨fun j hj => by rw [run_succ j hstep]; exact hstay j hj, (run_succ _ hstep).trans hend⟩

/-- Settles O11: POWMOD's latch stands in PM_INIT, from where the run is known step by step. -/
theorem powmodCompletes : Obligations.PowmodCompletes := by
  intro s hb hev hm
  have hexec := exec_accepted (i := .powmod) hb (decide_eq_false hm)
  obtain ⟨hstay, hend⟩ := run_pmInit (s := latchOf .powmod { s with cmd := encode .powmod }) hev rfl rfl hm
  refine ⟨Nat.le_add_left .., Nat.add_le_add_right (bitlen_le s.arg1.isLt) 2,
    ⟨_, ⟨_, _, hexec, hend, complete_latchOf_completedFrom .powmod _ s, fun j hj => ?_⟩, powmod_toNat hm⟩,
    _, hexec, rfl, fun j h1 hj => ?_⟩
  · cases j with
    | zero => exact ⟨_, rfl, (nofun : Phase.pmInit ≠ .idle)⟩
    | succ j =>
      have hj : j ≤ bitlen s.arg1 := by omega
      obtain ⟨d, hd⟩ := hstay j hj
      exact ⟨_, hd, (nofun : Phase.pmLoop ≠ .idle)⟩
  · obtain ⟨j, rfl⟩ := Nat.exists_eq_add_of_le' h1
    obtain ⟨d, hd⟩ := hstay j (Nat.le_of_succ_le_succ hj)
    exact ⟨_, hd, rfl⟩

end Sys2Proof.Machine
end

/-! ## The Miller–Rabin tester (41_sprp.md) -/

section

namespace Sys2Proof.Machine

/-! ### A command from acceptance to completion, the engine alone (10_state.md R28, 70_reset_and_hazards.md R246) -/

/-- The engine's turns alone complete the command in flight in the k-th step with v, and not before. -/
abbrev State.FinishesIn (k : Nat) (v : Word) (s : State) : Prop :=
  Host.Core.run Sys2Proof.core k s = .next (complete v s) ∧
    ∀ j, j < k → ∃ w, Host.Core.run Sys2Proof.core j s = .next w ∧ w.phase ≠ .idle

theorem finishesIn_one {s : State} {v : Word} (hp : s.phase ≠ .idle) (h : step s = .next (complete v s)) :
    s.FinishesIn 1 v := by
  refine ⟨run_succ 0 h, fun j hj => ⟨s, ?_, hp⟩⟩
  rw [Nat.lt_one_iff.1 hj, run_zero]

/-- A step that writes only the hidden registers and the phase comes before a completion that forgets them (R78). -/
theorem finishesIn_succ {s : State} {k : Nat} {v : Word} {d : Datapath} {p : Phase} (hp : s.phase ≠ .idle)
    (h : step s = .next { s with dp := d, phase := p }) (ht : { s with dp := d, phase := p }.FinishesIn k v) :
    s.FinishesIn (k + 1) v := by
  obtain ⟨hend, hstay⟩ := ht
  refine ⟨(run_succ k h).trans hend, fun j hj => ?_⟩
  cases j with
  | zero => exact ⟨s, rfl, hp⟩
  | succ j => rw [run_succ j h]; exact hstay j (Nat.lt_of_succ_lt_succ hj)

theorem Datapath.stepsLeft_pos (d : Datapath) {p : Phase} (hp : p ≠ .idle) : 0 < d.stepsLeft p := by
  cases p with
  | idle => exact absurd rfl hp
  | mm | pmInit | pmLoop | spCheck | spTest | spSq | tdPre | tdLoop => simp [Datapath.stepsLeft]

/-- From a datapath within its invariant the answer to come is delivered within the measure, by induction on the measure:
each step delivers it, or keeps it and brings the measure down. -/
theorem exists_finishesIn (n : Nat) : ∀ s : State, s.events = [] → s.phase ≠ .idle → s.dp.Ok s.phase →
    s.dp.stepsLeft s.phase ≤ n → ∃ k, 1 ≤ k ∧ k ≤ n ∧ s.FinishesIn k (s.dp.pending s.phase) := by
  induction n with
  | zero =>
    intro s _ hp _ hn
    have := s.dp.stepsLeft_pos hp
    omega
  | succ n ih =>
    intro s hev hp hok hn
    rcases engineStep_advances hok hp with ⟨d, p, he, hp', hok', hpend, hsteps⟩ | he
    · obtain ⟨k, -, hk, hfin⟩ := ih { s with dp := d, phase := p } hev hp' hok'
        (Nat.le_of_lt_succ (lt_of_lt_of_le hsteps hn))
      rw [← hpend]
      exact ⟨k + 1, Nat.le_add_left .., Nat.succ_le_succ hk, finishesIn_succ hp ((step_nil hev).trans he) hfin⟩
    · exact ⟨1, le_refl _, Nat.le_add_left .., finishesIn_one hp ((step_nil hev).trans he)⟩

theorem latchOf_phase_ne_idle (i : Instr) (s : State) : (latchOf i s).phase ≠ .idle := by
  obtain ⟨d, p, hp, -, hl⟩ := latchOf_eq i s
  rwa [hl]

/-- Every command with no operand error completes within its bound with its function's value (R246; log 1). -/
theorem exists_completesIn_answer {s : State} {i : Instr} (hb : s.busy = false) (hev : s.events = [])
    (ho : s.operandError i = false) : ∃ k, 1 ≤ k ∧ k ≤ stepBound i ∧ CompletesIn i k (s.answer i) s := by
  obtain ⟨k, h1, hk, hend, hstay⟩ := exists_finishesIn (stepBound i) (latchOf i { s with cmd := encode i })
    ((latchOf_events i _).trans hev) (latchOf_phase_ne_idle i _) (latchOf_ok (s := { s with cmd := encode i }) ho)
    (latchOf_stepsLeft i _)
  have hanswer : ({ s with cmd := encode i } : State).answer i = s.answer i := by cases i <;> rfl
  rw [latchOf_pending, hanswer] at hend
  exact ⟨k, h1, hk, _, _, exec_accepted hb ho, hend, complete_latchOf_completedFrom i _ s, hstay⟩

/-- Settles O12: SPRP's operand error is the BASE_ZERO case, and its answer is the function `sprp`. -/
theorem sprpCompletes : Obligations.SprpCompletes := by
  intro s hb hev hbase
  exact exists_completesIn_answer (i := .sprp) hb hev (by rwa [← Bool.not_eq_true, operandError_sprp_iff])

/-! ### The function `sprp`, clause by clause (R130) -/

theorem word_le_two_iff (n : Word) : n ≤ 2#32 ↔ n.toNat ≤ 2 := BitVec.le_def

theorem umod_eq_zero_iff (a b : Word) : a % b = 0#32 ↔ a.toNat % b.toNat = 0 := by
  rw [← BitVec.toNat_inj, BitVec.toNat_umod]
  rfl

theorem toNat_ne_zero {w : Nat} {v : BitVec w} (hv : v ≠ 0#w) : v.toNat ≠ 0 :=
  fun h => hv (BitVec.eq_of_toNat_eq (by simpa using h))

theorem toNat_sub_one {w : Nat} {v : BitVec w} (hv : v ≠ 0#w) : (v - 1#w).toNat = v.toNat - 1 := by
  have hpos := toNat_ne_zero hv
  have hlt := v.isLt
  have hone : (1#w).toNat = 1 := by rw [BitVec.toNat_ofNat]; exact Nat.mod_eq_of_lt (by omega)
  rw [BitVec.toNat_sub_of_le (by rw [BitVec.le_def]; omega), hone]

theorem eq_sub_one_iff {x n : Word} (hn : n ≠ 0#32) : x = n - 1#32 ↔ x.toNat = n.toNat - 1 := by
  rw [← BitVec.toNat_inj, toNat_sub_one hn]

theorem sprp_of_le_two {n : Word} (base : Word) (h : n.toNat ≤ 2) : sprp base n = decide (n.toNat = 2) := by
  rw [sprp, if_pos ((word_le_two_iff n).2 h), decide_eq_decide, ← BitVec.toNat_inj]
  rfl

theorem sprp_of_even {n : Word} (base : Word) (h : 2 < n.toNat) (he : n.toNat % 2 = 0) : sprp base n = false := by
  have hle : ¬ n ≤ 2#32 := by rw [word_le_two_iff]; omega
  rw [sprp, if_neg hle, if_pos ((lowBit_false_iff n).2 he)]

section

variable {base n : Word} (h : 2 < n.toNat) (ho : n.toNat % 2 = 1)
include h ho

/-- The candidate gets past the first two checks. -/
theorem sprp_of_odd : sprp base n = if n % base = 0#32 then decide (n = base) else
    witnessTest n (ctz (n - 1#32)) (powmod base ((n - 1#32) >>> ctz (n - 1#32)) n) := by
  have hle : ¬ n ≤ 2#32 := by rw [word_le_two_iff]; omega
  have hlow : ¬ lowBit n = false := by rw [lowBit_false_iff]; omega
  rw [sprp, if_neg hle, if_neg hlow]

theorem sprp_of_dvd (hd : base.toNat ∣ n.toNat) : sprp base n = decide (n = base) := by
  rw [sprp_of_odd h ho, if_pos ((umod_eq_zero_iff n base).2 (Nat.mod_eq_zero_of_dvd hd))]

theorem sprp_eq_witnessTest (hd : n.toNat % base.toNat ≠ 0) : sprp base n =
    witnessTest n (ctz (n - 1#32)) (powmod base ((n - 1#32) >>> ctz (n - 1#32)) n) := by
  rw [sprp_of_odd h ho, if_neg (mt (umod_eq_zero_iff n base).1 hd)]

end

/-- Settles O48: n ≤ 2 and even n answer first, so a prime base that divides n is looked at on each of the three paths. -/
theorem sprpEdgeCases : Obligations.SprpEdgeCases := by
  intro base n
  refine ⟨sprp_of_le_two base, sprp_of_even base, fun hb hd => ?_, fun h ho => ?_⟩
  · rcases Nat.lt_or_ge 2 n.toNat with h | h
    · rcases Nat.mod_two_eq_zero_or_one n.toNat with he | ho
      · rw [sprp_of_even base h he, eq_comm, decide_eq_false_iff_not]
        rintro rfl
        rcases hb.eq_two_or_odd with h2 | h1 <;> omega
      · exact sprp_of_dvd h ho hd
    · rw [sprp_of_le_two base h, decide_eq_decide]
      constructor
      · intro h2
        rw [h2, Nat.prime_dvd_prime_iff_eq hb Nat.prime_two] at hd
        exact BitVec.eq_of_toNat_eq (h2.trans hd.symm)
      · rintro rfl
        exact le_antisymm h hb.two_le
  · rw [sprp_of_dvd h ho (one_dvd _), decide_eq_false_iff_not]
    rintro rfl
    exact absurd h (by decide)

/-! ### The strong probable-prime test in numbers (R139(d)) -/

/-- The square brings every later power of two one place nearer. -/
theorem mulmod_self_pow {n : Word} (hn : n ≠ 0#32) (x : Word) (r : Nat) :
    (mulmod x x n).toNat ^ 2 ^ r % n.toNat = x.toNat ^ 2 ^ (r + 1) % n.toNat := by
  rw [mulmod_toNat hn, ← Nat.pow_mod, ← pow_two, ← pow_mul, ← pow_succ']

/-- The loop passes exactly if one of its first `left` squares is n − 1, by induction on the squarings left (R130, step 4). -/
theorem squareLoop_iff {n : Word} (hn : n ≠ 0#32) (left : Nat) : ∀ x : Word, x < n →
    (squareLoop n left x = true ↔ ∃ r, r < left ∧ x.toNat ^ 2 ^ r % n.toNat = n.toNat - 1) := by
  induction left with
  | zero => intro x _; simp [squareLoop]
  | succ left ih =>
    intro x hx
    have hfirst : x = n - 1#32 ↔ x.toNat ^ 2 ^ 0 % n.toNat = n.toNat - 1 := by
      rw [pow_zero, pow_one, Nat.mod_eq_of_lt (BitVec.lt_def.1 hx), eq_sub_one_iff hn]
    calc squareLoop n (left + 1) x = true
        ↔ x = n - 1#32 ∨ squareLoop n left (mulmod x x n) = true := by simp [squareLoop]
      _ ↔ ∃ r, r < left + 1 ∧ x.toNat ^ 2 ^ r % n.toNat = n.toNat - 1 := by
        rw [Nat.exists_lt_succ_left, hfirst, ih _ (mulmod_lt hn)]
        simp only [mulmod_self_pow hn]

/-- The test of b to the candidate n with n − 1 = d · 2^e. -/
abbrev StrongTest (b n d e : Nat) : Prop :=
  b ^ d % n = 1 ∨ ∃ r, r < e ∧ b ^ (d * 2 ^ r) % n = n - 1

theorem witnessTest_powmod_iff {n : Word} (hn : n ≠ 0#32) (base d : Word) (e : Nat) :
    witnessTest n e (powmod base d n) = true ↔ StrongTest base.toNat n.toNat d.toNat e := by
  have hval := powmod_toNat (b := base) (x := d) hn
  have hlt : powmod base d n < n := by
    rw [BitVec.lt_def, hval]
    exact Nat.mod_lt _ (toNat_pos_of_ne_zero hn)
  calc witnessTest n e (powmod base d n) = true
      ↔ powmod base d n = 1#32 ∨ squareLoop n e (powmod base d n) = true := by simp [witnessTest]
    _ ↔ StrongTest base.toNat n.toNat d.toNat e := by
      rw [squareLoop_iff hn e _ hlt, ← BitVec.toNat_inj, hval]
      simp only [← Nat.pow_mod, ← pow_mul]
      rfl

theorem le_of_mul_two_pow_eq {d e d' e' : Nat} (h : d * 2 ^ e = d' * 2 ^ e') (hd' : d' % 2 = 1) : e ≤ e' := by
  have hcop : Nat.Coprime (2 ^ e) d' := (Nat.coprime_two_left.2 (Nat.odd_iff.2 hd')).pow_left e
  have hdvd : 2 ^ e ∣ 2 ^ e' := hcop.dvd_of_dvd_mul_left ⟨d, by rw [← h, Nat.mul_comm]⟩
  exact (Nat.pow_dvd_pow_iff_le_right (by decide)).1 hdvd

/-- A number has one odd part and one power of two. -/
theorem odd_mul_two_pow_inj {d e d' e' : Nat} (h : d * 2 ^ e = d' * 2 ^ e') (hd : d % 2 = 1) (hd' : d' % 2 = 1) :
    d = d' ∧ e = e' := by
  have he : e = e' := le_antisymm (le_of_mul_two_pow_eq h hd') (le_of_mul_two_pow_eq h.symm hd)
  subst he
  exact ⟨Nat.eq_of_mul_eq_mul_right (Nat.two_pow_pos e) h, rfl⟩

/-- Settles O49: the decomposition by `ctz` is the given one, and the loops are the powers it names. -/
theorem sprpIsTheStrongTest : Obligations.SprpIsTheStrongTest := by
  intro base n d e _ h3 ho hd hn hodd
  have hn0 : n ≠ 0#32 := by rintro rfl; exact absurd h3 (by decide)
  have hsub := toNat_sub_one hn0
  have hv : n - 1#32 ≠ 0#32 := fun h => by simp [h] at hsub; omega
  obtain ⟨-, hmul, hlow⟩ := ctz_spec hv
  obtain ⟨rfl, rfl⟩ := odd_mul_two_pow_inj (hn.symm.trans (hsub.symm.trans hmul.symm)) hodd ((lowBit_iff _).1 hlow)
  rw [sprp_eq_witnessTest h3 ho hd]
  exact witnessTest_powmod_iff hn0 base _ _

/-! ### Primes pass (R139(e)) -/

/-- Where x² = 1 only for x = 1 and x = −1, a power of two that brings y to 1 passes −1 on the way, unless y is 1. -/
theorem eq_one_or_exists_eq_neg_one {R : Type*} [CommRing R] [NoZeroDivisors R] {y : R} (e : Nat) (h : y ^ 2 ^ e = 1) :
    y = 1 ∨ ∃ r, r < e ∧ y ^ 2 ^ r = -1 := by
  induction e with
  | zero => exact .inl (by simpa using h)
  | succ e ih =>
    rw [pow_succ, pow_mul, sq_eq_one_iff] at h
    rcases h with h | h
    · exact (ih h).imp_right fun ⟨r, hr, hy⟩ => ⟨r, Nat.lt_succ_of_lt hr, hy⟩
    · exact .inr ⟨e, Nat.lt_succ_self e, h⟩

theorem mod_eq_one_of_cast {p a : Nat} (hp : 1 < p) (h : (a : ZMod p) = 1) : a % p = 1 := by
  rw [← Nat.cast_one, ZMod.natCast_eq_natCast_iff', Nat.mod_eq_of_lt hp] at h
  exact h

theorem mod_eq_pred_of_cast {p a : Nat} (hp : 0 < p) (h : (a : ZMod p) = -1) : a % p = p - 1 := by
  have hpred : ((p - 1 : Nat) : ZMod p) = -1 := by rw [Nat.cast_pred hp, ZMod.natCast_self, zero_sub]
  rw [← hpred, ZMod.natCast_eq_natCast_iff', Nat.mod_eq_of_lt (Nat.sub_one_lt hp.ne')] at h
  exact h

/-- Fermat's little theorem, and in a field the square roots of 1 are 1 and −1. -/
theorem strongTest_of_prime {b p d e : Nat} (hp : p.Prime) (hb : b % p ≠ 0) (h : p - 1 = d * 2 ^ e) :
    StrongTest b p d e := by
  have := Fact.mk hp
  have hb0 : (b : ZMod p) ≠ 0 := by
    rw [Ne, ZMod.natCast_eq_zero_iff]
    exact fun hd => hb (Nat.mod_eq_zero_of_dvd hd)
  have hfermat : ((b : ZMod p) ^ d) ^ 2 ^ e = 1 := by rw [← pow_mul, ← h, ZMod.pow_card_sub_one_eq_one hb0]
  rcases eq_one_or_exists_eq_neg_one e hfermat with h1 | ⟨r, hr, hneg⟩
  · exact .inl (mod_eq_one_of_cast hp.one_lt (by exact_mod_cast h1))
  · refine .inr ⟨r, hr, mod_eq_pred_of_cast hp.pos ?_⟩
    rw [pow_mul]
    exact_mod_cast hneg

/-- Settles O50: a base above 1 that n does not divide does not divide the prime n, so the test is R139(d)'s. -/
theorem oddPrimesPassTheTest : Obligations.OddPrimesPassTheTest := by
  intro base n hp ho h1 hb
  have hd : n.toNat % base.toNat ≠ 0 := by
    intro h0
    rcases (Nat.dvd_prime hp).1 (Nat.dvd_of_mod_eq_zero h0) with h | h
    · exact absurd h h1.ne'
    · exact hb (by rw [h, Nat.mod_self])
  have h3 : 3 ≤ n.toNat := by have := hp.two_le; omega
  obtain ⟨e, d, hodd, hn⟩ := Nat.exists_eq_two_pow_mul_odd (n := n.toNat - 1) (by omega)
  rw [Nat.mul_comm] at hn
  have hbase : base ≠ 0#32 := by rintro rfl; exact absurd h1 (by decide)
  exact (sprpIsTheStrongTest base n d e hbase h3 ho hd hn (Nat.odd_iff.1 hodd)).2 (strongTest_of_prime hp hb hn)

/-- Settles O51, by evaluation. -/
theorem strongPseudoprimePasses : Obligations.StrongPseudoprimePasses := by
  unfold Obligations.StrongPseudoprimePasses
  decide

/-! ### The phase rules, clause by clause (R132, R135 to R137) -/

theorem engineStep_spCheck_setup {s : State} (hp : s.phase = .spCheck) (h3 : 3 ≤ s.dp.n.toNat)
    (ho : s.dp.n.toNat % 2 = 1) (hw : s.dp.wb ≠ 0#32) (hd : s.dp.n.toNat % s.dp.wb.toNat ≠ 0) :
    engineStep s = .next (spSetup s) := by
  have hle : ¬ s.dp.n ≤ 2#32 := by rw [word_le_two_iff]; omega
  have hlow : ¬ lowBit s.dp.n = false := by rw [lowBit_false_iff]; omega
  simp only [engineStep, hp, stepSpCheck, if_neg hle, if_neg hlow, if_neg hw, umod_eq_zero_iff, if_neg hd]

/-- Settles O37: n − 1 has 32 bits and is even, which bounds its odd part. -/
theorem spCheckDecomposesCandidate : Obligations.SpCheckDecomposesCandidate := by
  intro s hp h3 ho hw hd
  have hle : ¬ s.dp.n ≤ 2#32 := by rw [word_le_two_iff]; omega
  obtain ⟨⟨-, -, hlow, he, hmul⟩, -⟩ := spSetup_decomposed hle ((lowBit_iff _).2 ho)
  have hodd := (lowBit_iff _).1 hlow
  have hlt := s.dp.n.isLt
  have h2 : (spSetup s).dp.d.toNat * 2 ≤ s.dp.n.toNat - 1 := by
    rw [show s.dp.n.toNat - 1 = _ from hmul]
    exact Nat.mul_le_mul_left _ (Nat.pow_le_pow_right Nat.two_pos he)
  exact ⟨(spSetup s).dp.d, (spSetup s).dp.e, engineStep_spCheck_setup hp h3 ho hw hd, hmul, hodd, he,
    Nat.le_of_lt_succ (spSetup s).dp.e.isLt, by omega, by omega⟩

theorem spReturn_sprp {s : State} (hop : s.dp.op = opOf .sprp) (v : Bool) :
    spReturn v s = .next (complete (boolWord v) s) := if_pos hop

section

variable {s : State} (hop : s.dp.op = opOf .isprime)
include hop

theorem spReturn_isprime (v : Bool) : spReturn v s = if v = false then .next (complete 0#32 s)
    else if s.dp.bi = 2#2 then .next (complete 1#32 s) else enterWitness (s.dp.bi.toNat + 1) s :=
  if_neg (hop ▸ opOf_sprp_ne_isprime.symm)

theorem spReturn_isprime_false : spReturn false s = .next (complete 0#32 s) :=
  spReturn_isprime hop false

theorem spReturn_isprime_last (hbi : s.dp.bi = 2#2) : spReturn true s = .next (complete 1#32 s) :=
  (spReturn_isprime hop true).trans (if_pos hbi)

theorem spReturn_isprime_next (hbi : s.dp.bi ≠ 2#2) : spReturn true s = enterWitness (s.dp.bi.toNat + 1) s :=
  (spReturn_isprime hop true).trans (if_neg hbi)

end

theorem enterWitness_of_some {i : Nat} {b : Word} (h : Config.witnessBases[i]? = some b) (s : State) :
    enterWitness i s = .next { s with dp := { s.dp with bi := BitVec.ofNat 2 i, wb := b }, phase := .spCheck } := by
  simp only [enterWitness, h]

/-- What the host sees of a completion with v (30_encoding.md R78). -/
theorem complete_reports (v : Word) (s : State) : (complete v s).phase = .idle ∧ (complete v s).result = v ∧
    (complete v s).busy = false ∧ (complete v s).done = true ∧ (complete v s).err = 0#4 ∧
    (complete v s).ovr = s.ovr :=
  ⟨rfl, rfl, Status.busy_completed _, Status.done_completed _, Status.err_completed _, Status.ovr_completed _⟩

/-- Settles O38, clause by clause of R137. -/
theorem witnessBasesRunInOrder : Obligations.WitnessBasesRunInOrder := by
  intro s
  refine ⟨fun v hop => ?_, fun hop => ?_, fun hop hbi => ?_, fun hop hbi => ?_, fun hop hbi => ?_⟩
  · exact ⟨_, spReturn_sprp hop v, complete_reports (boolWord v) s⟩
  · exact ⟨_, spReturn_isprime_false hop, complete_reports 0#32 s⟩
  · exact ⟨_, spReturn_isprime_last hop hbi, complete_reports 1#32 s⟩
  · rw [spReturn_isprime_next hop (by rw [hbi]; decide), hbi]
    exact enterWitness_of_some (i := 1) rfl s
  · rw [spReturn_isprime_next hop (by rw [hbi]; decide), hbi]
    exact enterWitness_of_some (i := 2) rfl s

theorem engineStep_spTest_one {s : State} (hp : s.phase = .spTest) (hx : s.dp.x = 1#32) :
    engineStep s = spReturn true s := by
  simp only [engineStep, hp, stepSpTest, if_pos hx]

theorem engineStep_spTest_ne_one {s : State} (hp : s.phase = .spTest) (hx : s.dp.x ≠ 1#32) :
    engineStep s = .next { s with phase := .spSq, dp := { s.dp with sq := s.dp.e } } := by
  simp only [engineStep, hp, stepSpTest, if_neg hx]

theorem engineStep_spSq_zero {s : State} (hp : s.phase = .spSq) (hsq : s.dp.sq = 0#5) :
    engineStep s = spReturn false s := by
  simp only [engineStep, hp, stepSpSq, if_pos hsq]

section

variable {s : State} (hp : s.phase = .spSq) (hsq : s.dp.sq ≠ 0#5) (hn : s.dp.n ≠ 0#32)
include hp hsq hn

theorem engineStep_spSq_pred (hx : s.dp.x = s.dp.n - 1#32) : engineStep s = spReturn true s := by
  simp only [engineStep, hp, stepSpSq, if_neg hsq, if_neg hn, if_pos hx]

theorem engineStep_spSq_square (hx : s.dp.x ≠ s.dp.n - 1#32) : engineStep s =
    .next { s with dp := { s.dp with x := mulmod s.dp.x s.dp.x s.dp.n, sq := s.dp.sq - 1#5 } } := by
  simp only [engineStep, hp, stepSpSq, if_neg hsq, if_neg hn, if_neg hx]

end

/-- Settles O39: the two clauses of SP_TEST and the three of SP_SQ, where x = n − 1 is read as a number. -/
theorem squaringLoopSteps : Obligations.SquaringLoopSteps := by
  intro s
  refine ⟨engineStep_spTest_one, engineStep_spTest_ne_one, engineStep_spSq_zero, fun hp hsq hx => ?_,
    fun hp hsq hn hx => ?_⟩
  · have hn : s.dp.n ≠ 0#32 := fun h0 => by simp [h0] at hx
    exact engineStep_spSq_pred hp hsq hn ((eq_sub_one_iff hn).2 (by omega))
  · have hpred : s.dp.x ≠ s.dp.n - 1#32 := by
      rw [Ne, eq_sub_one_iff hn]
      have := toNat_ne_zero hn
      omega
    refine ⟨_, _, engineStep_spSq_square hp hsq hn hpred, mulmod_toNat hn, ?_⟩
    rw [toNat_sub_one hsq]
    exact Nat.sub_one_add_one (toNat_ne_zero hsq)

end Sys2Proof.Machine
end

/-! ## The trial-division filter and the primality decision (42_primality.md) -/

section

namespace Sys2Proof.Machine

/-! ### TDIV and ISPRIME from acceptance to completion (R166, R170) -/

/-- Settles O13: TDIV has no operand error, and its answer is the code of the verdict. -/
theorem tdivCompletes : Obligations.TdivCompletes := fun _ hb hev =>
  exists_completesIn_answer (i := .tdiv) hb hev rfl

/-- Settles O14: ISPRIME has no operand error, and its answer is the function `is_prime`. -/
theorem isprimeCompletes : Obligations.IsprimeCompletes := fun _ hb hev =>
  exists_completesIn_answer (i := .isprime) hb hev rfl

/-! ### The phase rules, clause by clause (R162, R163, R165) -/

section

variable {s : State} (hp : s.phase = .tdPre)
include hp

theorem engineStep_tdPre_le_two (h : s.dp.n.toNat ≤ 2) :
    engineStep s = tdReturn (if s.dp.n = 2#32 then .prime else .composite) s := by
  simp only [engineStep, hp, stepTdPre, word_le_two_iff, if_pos h]

theorem engineStep_tdPre_even (h : 2 < s.dp.n.toNat) (he : s.dp.n.toNat % 2 = 0) :
    engineStep s = tdReturn .composite s := by
  simp only [engineStep, hp, stepTdPre, word_le_two_iff, if_neg h.not_ge, lowBit_false_iff, if_pos he]

theorem engineStep_tdPre_odd (h : 2 < s.dp.n.toNat) (ho : s.dp.n.toNat % 2 = 1) :
    engineStep s = .next { s with phase := .tdLoop, dp := { s.dp with k := 3#6 } } := by
  have he : ¬ s.dp.n.toNat % 2 = 0 := by omega
  simp only [engineStep, hp, stepTdPre, word_le_two_iff, if_neg h.not_ge, lowBit_false_iff, if_neg he]

end

/-- Settles O40, clause by clause of R162. -/
theorem tdPreStep : Obligations.TdPreStep := by
  intro s hp
  refine ⟨fun h => ?_, fun h => ?_, engineStep_tdPre_even hp, engineStep_tdPre_odd hp⟩
  · rw [engineStep_tdPre_le_two hp h.le, if_pos (BitVec.eq_of_toNat_eq h)]
  · have hne : s.dp.n ≠ 2#32 := fun h2 => by simp [h2] at h
    rw [engineStep_tdPre_le_two hp h.le, if_neg hne]

/-- The trial divisor at the candidate's width. -/
theorem toNat_setWidth_divisor (k : BitVec 6) : (k.setWidth 32).toNat = k.toNat :=
  BitVec.toNat_setWidth_of_le (by decide)

theorem eq_divisor_iff (n : Word) (k : BitVec 6) : n = k.setWidth 32 ↔ n.toNat = k.toNat := by
  rw [← BitVec.toNat_inj, toNat_setWidth_divisor]

theorem umod_divisor_eq_zero_iff (n : Word) (k : BitVec 6) : n % k.setWidth 32 = 0#32 ↔ n.toNat % k.toNat = 0 := by
  rw [umod_eq_zero_iff, toNat_setWidth_divisor]

theorem eq_tdBound_iff (k : BitVec 6) : k = Config.tdBound ↔ k.toNat = 61 := BitVec.toNat_inj.symm

section

variable {s : State} (hp : s.phase = .tdLoop)
include hp

theorem engineStep_tdLoop_eq (he : s.dp.n.toNat = s.dp.k.toNat) : engineStep s = tdReturn .prime s := by
  simp only [engineStep, hp, stepTdLoop, eq_divisor_iff, if_pos he]

variable (hk : s.dp.k ≠ 0#6)
include hk

theorem engineStep_tdLoop_dvd (he : s.dp.n.toNat ≠ s.dp.k.toNat) (hd : s.dp.n.toNat % s.dp.k.toNat = 0) :
    engineStep s = tdReturn .composite s := by
  simp only [engineStep, hp, stepTdLoop, eq_divisor_iff, if_neg he, if_neg hk, umod_divisor_eq_zero_iff, if_pos hd]

/-- Past the equality and the divisibility test; the first is covered by the second. -/
theorem engineStep_tdLoop_not_dvd (hd : s.dp.n.toNat % s.dp.k.toNat ≠ 0) :
    engineStep s = if s.dp.k.toNat = 61 then tdReturn .survivor s
      else if 64 ≤ s.dp.k.toNat + 2 then .fault .registerRange
      else .next { s with dp := { s.dp with k := s.dp.k + 2#6 } } := by
  have he : s.dp.n.toNat ≠ s.dp.k.toNat := fun h => hd (by rw [h, Nat.mod_self])
  simp only [engineStep, hp, stepTdLoop, eq_divisor_iff, if_neg he, if_neg hk, umod_divisor_eq_zero_iff, if_neg hd,
    eq_tdBound_iff]

end

/-- Settles O42, clause by clause of R163; the next odd divisor fits its 6 bits. -/
theorem tdLoopStep : Obligations.TdLoopStep := by
  intro s hp h3 h61 hodd
  have hk : s.dp.k ≠ 0#6 := fun h => by simp [h] at h3
  refine ⟨engineStep_tdLoop_eq hp, engineStep_tdLoop_dvd hp hk, fun hd hl => ?_, fun hd hl => ?_⟩
  · rw [engineStep_tdLoop_not_dvd hp hk hd, if_pos hl]
  · have hk2 : (s.dp.k + 2#6).toNat = s.dp.k.toNat + 2 := by
      rw [BitVec.toNat_add]
      exact Nat.mod_eq_of_lt (show s.dp.k.toNat + 2 < 64 by omega)
    refine ⟨s.dp.k + 2#6, ?_, hk2, by omega, by omega⟩
    rw [engineStep_tdLoop_not_dvd hp hk hd, if_neg hl, if_neg (by omega)]

theorem tdReturn_tdiv {s : State} (hop : s.dp.op = opOf .tdiv) (v : Verdict) :
    tdReturn v s = .next (complete v.word s) := if_pos hop

/-- ISPRIME's part of `td_return`, for each verdict. -/
theorem tdReturn_isprime {s : State} (hop : s.dp.op = opOf .isprime) :
    tdReturn .prime s = .next (complete 1#32 s) ∧ tdReturn .composite s = .next (complete 0#32 s) ∧
    tdReturn .survivor s = enterWitness 0 s := by
  have hne : s.dp.op ≠ opOf .tdiv := hop ▸ opOf_tdiv_ne_isprime.symm
  exact ⟨if_neg hne, if_neg hne, if_neg hne⟩

/-- Settles O41, clause by clause of R165. -/
theorem filterReturnsItsVerdict : Obligations.FilterReturnsItsVerdict := by
  intro s
  refine ⟨fun v hop => ?_, fun hop => ?_, fun hop => ?_, fun hop => ?_⟩
  · exact ⟨_, tdReturn_tdiv hop v, complete_reports v.word s⟩
  all_goals obtain ⟨hprime, hcomposite, hsurvivor⟩ := tdReturn_isprime hop
  · exact ⟨_, hprime, complete_reports 1#32 s⟩
  · exact ⟨_, hcomposite, complete_reports 0#32 s⟩
  · rw [hsurvivor]
    exact enterWitness_of_some (i := 0) rfl s

/-! ### The verdict by the least prime factor (R160, R161) -/

/-- The verdict on n once every divisor below b has been tried. -/
def factorVerdict (b n : Nat) : Verdict :=
  if b ≤ n.minFac then .survivor else if n.minFac = n then .prime else .composite

theorem factorVerdict_survivor_iff (b n : Nat) : factorVerdict b n = .survivor ↔ b ≤ n.minFac := by
  unfold factorVerdict
  split_ifs with hb <;> simp [hb]

theorem factorVerdict_prime_iff (b n : Nat) : factorVerdict b n = .prime ↔ n.minFac < b ∧ n.minFac = n := by
  unfold factorVerdict
  split_ifs with hb hn <;> simp only [false_iff, true_iff] <;> omega

theorem factorVerdict_composite_iff (b n : Nat) : factorVerdict b n = .composite ↔ n.minFac < b ∧ n.minFac ≠ n := by
  unfold factorVerdict
  split_ifs with hb hn <;> simp only [false_iff, true_iff] <;> omega

theorem trialDivisors_eq : Config.trialDivisors = (List.range' 3 30 2).map (BitVec.ofNat 32) := by decide

/-- One round of the policy's loop, read as numbers. -/
theorem trialLoop_cons (n : Word) {k : Nat} (hk : k < 2 ^ 32) (ks : List Word) :
    trialLoop n (BitVec.ofNat 32 k :: ks) =
      if n.toNat = k then .prime else if n.toNat % k = 0 then .composite else trialLoop n ks := by
  have hkn : (BitVec.ofNat 32 k).toNat = k := Nat.mod_eq_of_lt hk
  simp only [trialLoop, ← BitVec.toNat_inj (y := BitVec.ofNat 32 k), umod_eq_zero_iff, hkn]

/-- A divisor above 1 that no smaller one comes before is the least prime factor. -/
theorem minFac_eq_of_dvd {n k : Nat} (hk : 2 ≤ k) (hlow : k ≤ n.minFac) (hd : k ∣ n) : n.minFac = k :=
  le_antisymm (Nat.minFac_le_of_dvd hk hd) hlow

/-- Policy step 3 over the odd divisors from k on, when none below k divides n, by induction on how many are left
(R161). -/
theorem trialLoop_odds {n : Word} (ho : n.toNat % 2 = 1) (left : Nat) : ∀ k : Nat, 2 ≤ k → k % 2 = 1 →
    k + 2 * left ≤ 2 ^ 32 → k ≤ n.toNat.minFac →
    trialLoop n ((List.range' k left 2).map (BitVec.ofNat 32)) = factorVerdict (k + 2 * left) n.toNat := by
  induction left with
  | zero =>
    intro k _ _ _ hlow
    exact ((factorVerdict_survivor_iff _ _).2 hlow).symm
  | succ left ih =>
    intro k hk hodd hmax hlow
    rw [List.range'_succ, List.map_cons, trialLoop_cons n (by omega)]
    split_ifs with he hd
    · have hmin := minFac_eq_of_dvd hk hlow (dvd_of_eq he.symm)
      exact ((factorVerdict_prime_iff _ _).2 ⟨by omega, by omega⟩).symm
    · have hmin := minFac_eq_of_dvd hk hlow (Nat.dvd_of_mod_eq_zero hd)
      exact ((factorVerdict_composite_iff _ _).2 ⟨by omega, by omega⟩).symm
    · have hne : n.toNat.minFac ≠ k := fun h => hd (Nat.mod_eq_zero_of_dvd (h ▸ Nat.minFac_dvd _))
      have hminodd : n.toNat.minFac % 2 = 1 :=
        Nat.odd_iff.1 ((Nat.odd_iff.2 ho).of_dvd_nat (Nat.minFac_dvd _))
      rw [ih (k + 2) (by omega) (by omega) (by omega) (by omega), Nat.mul_succ, Nat.add_right_comm, Nat.add_assoc]

theorem trialDiv_of_le_two {n : Word} (h : n.toNat ≤ 2) :
    trialDiv n = if n.toNat = 2 then .prime else .composite := by
  simp only [trialDiv, word_le_two_iff, if_pos h, ← BitVec.toNat_inj]
  rfl

/-- From 2 on the verdict is the one on the odd divisors 3 to 61 and 2, which are all the divisors below 63. -/
theorem trialDiv_eq_factorVerdict {n : Word} (h : 2 ≤ n.toNat) : trialDiv n = factorVerdict 63 n.toNat := by
  rcases h.eq_or_lt with h2 | h2
  · rw [trialDiv_of_le_two h2.ge, ← h2]
    exact ((factorVerdict_prime_iff 63 2).2 (by norm_num)).symm
  rw [trialDiv, if_neg (by rw [word_le_two_iff]; omega)]
  rcases Nat.mod_two_eq_zero_or_one n.toNat with he | ho
  · have hmin : n.toNat.minFac = 2 := (Nat.minFac_eq_two_iff _).2 (Nat.dvd_of_mod_eq_zero he)
    rw [if_pos ((lowBit_false_iff n).2 he)]
    exact ((factorVerdict_composite_iff _ _).2 ⟨by omega, by omega⟩).symm
  · have hmin2 : n.toNat.minFac ≠ 2 := fun h => by
      have := (Nat.minFac_eq_two_iff _).1 h
      omega
    have hmin := (Nat.minFac_prime (by omega : n.toNat ≠ 1)).two_le
    rw [if_neg (by rw [lowBit_false_iff]; omega), trialDivisors_eq,
      trialLoop_odds ho 30 3 (by omega) (by omega) (by omega) (by omega)]

/-- 62 is not prime, so the last divisor 61 rules out every prime factor below 63. -/
theorem prime_le_61_iff {p : Nat} (hp : p.Prime) : p ≤ 61 ↔ p < 63 := by
  have h62 : p ≠ 62 := by rintro rfl; exact absurd hp (by norm_num)
  omega

section

variable {n : Nat} (h : 2 ≤ n)
include h

theorem factorVerdict_63_prime_iff : factorVerdict 63 n = .prime ↔ n.Prime ∧ n ≤ 61 := by
  rw [factorVerdict_prime_iff]
  constructor
  · rintro ⟨hlt, heq⟩
    have hp := Nat.prime_def_minFac.2 ⟨h, heq⟩
    exact ⟨hp, (prime_le_61_iff hp).2 (by omega)⟩
  · rintro ⟨hp, hn⟩
    rw [(Nat.prime_def_minFac.1 hp).2]
    exact ⟨by omega, rfl⟩

theorem factorVerdict_63_survivor_iff :
    factorVerdict 63 n = .survivor ↔ 61 < n ∧ ∀ p, p.Prime → p ≤ 61 → ¬ p ∣ n := by
  have hmin := Nat.minFac_prime (show n ≠ 1 by omega)
  rw [factorVerdict_survivor_iff]
  constructor
  · intro hge
    have hle := Nat.minFac_le (show 0 < n by omega)
    refine ⟨by omega, fun p hp h61 hd => ?_⟩
    have := Nat.minFac_le_of_dvd hp.two_le hd
    omega
  · rintro ⟨-, hno⟩
    rw [← not_lt, ← prime_le_61_iff hmin]
    exact fun h61 => hno _ hmin h61 (Nat.minFac_dvd n)

theorem factorVerdict_63_composite_iff :
    factorVerdict 63 n = .composite ↔ ∃ p, p.Prime ∧ p ≤ 61 ∧ p ∣ n ∧ p ≠ n := by
  have hmin := Nat.minFac_prime (show n ≠ 1 by omega)
  rw [factorVerdict_composite_iff, ← prime_le_61_iff hmin]
  constructor
  · rintro ⟨h61, hne⟩
    exact ⟨_, hmin, h61, Nat.minFac_dvd n, hne⟩
  · rintro ⟨p, hp, h61, hd, hne⟩
    have hleast := Nat.minFac_le_of_dvd hp.two_le hd
    have hlt := lt_of_le_of_ne (Nat.le_of_dvd (by omega) hd) hne
    omega

end

/-- Settles O52: below 2 the verdict is COMPOSITE; from 2 on each verdict is read off the least prime factor. -/
theorem trialVerdictIsThePrimeVerdict : Obligations.TrialVerdictIsThePrimeVerdict := by
  intro n
  rcases Nat.lt_or_ge n.toNat 2 with h | h
  · have hv : trialDiv n = .composite := by rw [trialDiv_of_le_two h.le, if_neg h.ne]
    refine ⟨iff_of_false (by simp [hv]) fun ⟨hp, _⟩ => ?_, iff_of_false (by simp [hv]) fun ⟨h61, _⟩ => ?_,
      iff_of_true hv (.inl h)⟩
    · exact absurd hp.two_le h.not_ge
    · omega
  · rw [trialDiv_eq_factorVerdict h, factorVerdict_63_composite_iff h, or_iff_right h.not_gt]
    exact ⟨factorVerdict_63_prime_iff h, factorVerdict_63_survivor_iff h, Iff.rfl⟩

/-! ### The decision (R164, R168, R169) -/

theorem isPrime_iff (n : Word) : isPrime n = true ↔ trialDiv n = .prime ∨
    trialDiv n = .survivor ∧ sprp 2#32 n = true ∧ sprp 7#32 n = true ∧ sprp 61#32 n = true := by
  unfold isPrime
  cases trialDiv n <;> simp [Config.witnessBases]

theorem isPrime_of_survivor {n : Word} (h : trialDiv n = .survivor) :
    isPrime n = true ↔ sprp 2#32 n = true ∧ sprp 7#32 n = true ∧ sprp 61#32 n = true := by
  simp [isPrime_iff, h]

/-- Every prime is answered right: up to 61 by the filter, above by the test, to bases below it (R169). -/
theorem isPrime_of_prime {n : Word} (hp : n.toNat.Prime) : isPrime n = true := by
  obtain ⟨hprime, hsurvivor, -⟩ := trialVerdictIsThePrimeVerdict n
  rw [isPrime_iff]
  rcases Nat.lt_or_ge 61 n.toNat with h | h
  · have hodd : n.toNat % 2 = 1 := hp.eq_two_or_odd.resolve_left (by omega)
    have hpass : ∀ base : Word, 1 < base.toNat → base.toNat ≤ 61 → sprp base n = true := fun base h1 h61 =>
      oddPrimesPassTheTest base n hp hodd h1 (by rw [Nat.mod_eq_of_lt (by omega)]; omega)
    refine .inr ⟨hsurvivor.2 ⟨h, fun p hq h61 hd => ?_⟩, hpass _ ?_ ?_, hpass _ ?_ ?_, hpass _ ?_ ?_⟩
    · have := (Nat.prime_dvd_prime_iff_eq hq hp).1 hd
      omega
    all_goals decide
  · exact .inl (hprime.2 ⟨hp, h⟩)

/-- Settles O53: a prime is answered true. -/
theorem notPrimeAnswersAreRight : Obligations.NotPrimeAnswersAreRight := by
  intro n hn hp
  rw [isPrime_of_prime hp] at hn
  cases hn

/-- A true answer is right where it does not rest on the test, and elsewhere if the test is right there. -/
theorem prime_of_isPrime {n : Word} (hn : isPrime n = true)
    (htest : trialDiv n = .survivor → sprp 2#32 n = true → sprp 7#32 n = true → sprp 61#32 n = true →
      n.toNat.Prime) :
    n.toNat.Prime := by
  rcases (isPrime_iff n).1 hn with h | ⟨h, h2, h7, h61⟩
  · exact ((trialVerdictIsThePrimeVerdict n).1.1 h).1
  · exact htest h h2 h7 h61

/-- Settles O54: primes are answered true in any case, so only the survivors that pass are in question. -/
theorem primalityIffNoStrongPseudoprime : Obligations.PrimalityIffNoStrongPseudoprime := by
  refine ⟨fun h n hv h2 h7 h61 => (h n).1 ?_, fun h n => ⟨fun hn => prime_of_isPrime hn (h n), isPrime_of_prime⟩⟩
  exact (isPrime_iff n).2 (.inr ⟨hv, h2, h7, h61⟩)

/-- Settles O55, by evaluation. -/
theorem isPrimeNamedValues : Obligations.IsPrimeNamedValues := by
  unfold Obligations.IsPrimeNamedValues
  decide +kernel

/-- The products below 10000 of two factors from 63 on, of which the first is below 100: a survivor among them fails the
test to base 2. By evaluation. -/
theorem sprp_two_survivor_product :
    ∀ p ∈ List.range' 63 37, ∀ q ∈ List.range' 63 96, p * q < 10000 →
      trialDiv (BitVec.ofNat 32 (p * q)) = .survivor → sprp 2#32 (BitVec.ofNat 32 (p * q)) = false := by
  decide +kernel

/-- A composite survivor below 10000 is such a product, by its least prime factor. -/
theorem sprp_two_composite_survivor {n : Word} (hn : n.toNat < 10000) (hv : trialDiv n = .survivor)
    (hp : ¬ n.toNat.Prime) : sprp 2#32 n = false := by
  have h61 := ((trialVerdictIsThePrimeVerdict n).2.1.1 hv).1
  have hlow : 63 ≤ n.toNat.minFac := by
    rwa [trialDiv_eq_factorVerdict (by omega), factorVerdict_survivor_iff] at hv
  have hsq := Nat.minFac_sq_le_self (by omega) hp
  obtain ⟨q, hq⟩ := Nat.minFac_dvd n.toNat
  generalize n.toNat.minFac = p at hlow hsq hq
  have hp100 : p < 100 := by nlinarith
  have hpq : p ≤ q := by nlinarith
  have hq159 : q < 159 := by nlinarith
  have hword : n = BitVec.ofNat 32 (p * q) := by rw [← hq, BitVec.ofNat_toNat, BitVec.setWidth_eq]
  rw [hword] at hv ⊢
  exact sprp_two_survivor_product p (List.mem_range'_1.2 ⟨hlow, hp100⟩) q
    (List.mem_range'_1.2 ⟨hlow.trans hpq, hq159⟩) (hq ▸ hn) hv

/-- Settles O56: primes are answered true, and below 10000 no composite survivor passes even base 2. -/
theorem isPrimeBelowTenThousand : Obligations.IsPrimeBelowTenThousand := by
  refine fun n hn => ⟨fun h => prime_of_isPrime h fun hv h2 _ _ => ?_, isPrime_of_prime⟩
  by_contra hp
  rw [sprp_two_composite_survivor hn hv hp] at h2
  cases h2

end Sys2Proof.Machine
end

/-! ## Exceptions (60_exceptions.md) -/

section

namespace Sys2Proof.Machine

/-! ### No step stops the machine (R207) -/

/-- The engine's turn from a state of the invariant passes in IDLE, and elsewhere goes on or completes. -/
theorem engineStep_next {s : State} (h : s.Inv) : ∃ t, engineStep s = .next t := by
  obtain ⟨-, -, hok⟩ := h
  by_cases hp : s.phase = .idle
  · exact ⟨s, engineStep_idle hp⟩
  · rcases engineStep_advances hok hp with ⟨d, p, he, -⟩ | he
    · exact ⟨_, he⟩
    · exact ⟨_, he⟩

theorem deliver_next {s : State} (h : s.Inv) (e : Event) : ∃ t, deliver e s = .next t := by
  cases e with
  | read | write => exact deliver_access_next s rfl
  | engine => exact engineStep_next h
  | reset => exact ⟨_, rfl⟩

/-- Settles O45, by the event the step takes: only the engine's turn rests on the invariant. -/
theorem noStepFaults : Obligations.NoStepFaults := by
  intro s h
  cases hev : s.events with
  | nil => rw [step_nil hev]; exact engineStep_next h
  | cons e rest => rw [step_cons hev]; exact deliver_next (s := { s with events := rest }) h e

/-! ### The command errors (R201 to R204) -/

theorem issue_idle {s : State} (hb : s.busy = false) (w : Word) (go : State → State) :
    issue w go s = go { s with cmd := w } := by
  simp only [issue, hb, Bool.false_eq_true, if_false]

/-- A word that is not legal is no command's, so it is issued as an illegal one (R204). -/
theorem issueWord_illegal {w : Word} (hw : legal w = false) (s : State) :
    issueWord w s = .next (issue w (cmdError .illegalCmd) s) := by
  cases hd : decode w with
  | ok i =>
    obtain ⟨-, -, hlegal⟩ := exactlyFiveWordsAreLegal w
    rw [hlegal.2 ⟨i, hd⟩] at hw
    cases hw
  | error r => simp only [issueWord, hd]

/-- Settles O6: an idle block takes the word into CMD and reports it. -/
theorem illegalWordReportsIllegalCmd : Obligations.IllegalWordReportsIllegalCmd := by
  intro s w hb hw
  rw [issueWord_illegal hw, issue_idle hb, cmdError, Status.failed_illegalCmd]

/-- The code of a command's operand error, NONE for a command that has none (R201, R202). -/
def operandErrorCode : Instr → ErrCode
  | .mulmod => .modZero
  | .powmod => .modZero
  | .sprp => .baseZero
  | .tdiv => .none
  | .isprime => .none

/-- An idle block reports a command's operand error with that command's code, and latches nothing (R203). -/
theorem exec_operandError {s : State} {i : Instr} (hb : s.busy = false) (ho : s.operandError i = true) :
    exec i s = .next (cmdError (operandErrorCode i) { s with cmd := encode i }) := by
  cases i with
  | mulmod => rw [exec, execMulmod, issue_idle hb]; exact congrArg _ (if_pos ho)
  | powmod => rw [exec, execPowmod, issue_idle hb]; exact congrArg _ (if_pos ho)
  | sprp => rw [exec, execSprp, issue_idle hb]; exact congrArg _ (if_pos ho)
  | tdiv | isprime => cases ho

/-- Settles O8: each command's condition is its operand error, and its code gives the STATUS word. -/
theorem operandErrorReportedAtAcceptance : Obligations.OperandErrorReportedAtAcceptance := by
  intro s hb
  have modulus (h : s.arg2 = 0#32) : decide (s.arg2 = 0#32) = true := decide_eq_true h
  refine ⟨fun h => ?_, fun h => ?_, fun h0 h2 hodd => ?_⟩
  · exact exec_operandError (i := .mulmod) hb (modulus h)
  · exact exec_operandError (i := .powmod) hb (modulus h)
  · exact exec_operandError (i := .sprp) hb ((operandError_sprp_iff s).2 ⟨h0, h2, hodd⟩)

end Sys2Proof.Machine
end

/-! ## Reset, hazards and progress (70_reset_and_hazards.md) -/

section

namespace Sys2Proof.Machine

/-! ### Progress (R246) -/

/-- Settles O19: the measure bounds the engine's turns, and the completion they end in delivers the answer to come. -/
theorem inFlightCommandCompletes : Obligations.InFlightCommandCompletes := by
  intro s h hb hev
  have hp := phase_ne_idle_of_busy h hb
  obtain ⟨-, -, hok⟩ := h
  obtain ⟨k, h1, hk, hend, -⟩ := exists_finishesIn (s.dp.stepsLeft s.phase) s hev hp hok (le_refl _)
  exact ⟨k, _, h1, hk, hend, rfl, Status.done_completed _, Status.err_completed _, rfl⟩

/-! ### A CMD write while busy, and OVR (R241) -/

theorem dropCommand_eq (s : State) : dropCommand s = { s with status := s.status ||| 0x00000004#32 } := by
  rw [dropCommand, Status.overrun_eq]

/-- The engine neither sets nor clears OVR: a completion keeps it (30_encoding.md R78). -/
theorem engineStep_ovr {s t : State} (h : engineStep s = .next t) : t.ovr = s.ovr := by
  by_cases hp : s.phase = .idle
  · cases (engineStep_idle hp).symm.trans h
    rfl
  · rcases engineStep_moves hp h with ⟨d, p, -, rfl⟩ | ⟨v, rfl⟩
    · rfl
    · exact Status.ovr_completed _

/-- A host access keeps OVR when it is 1, unless it is a CMD write that the block takes. -/
theorem deliver_access_ovr {s t : State} {e : Event} (ha : e.isAccess = true) (h : deliver e s = .next t)
    (hovr : s.ovr = true) : t.ovr = true ∨ (e.writesReg s.cfg .cmd = true ∧ s.busy = false) := by
  rcases deliver_access_cases s ha with ⟨r, he⟩ | ⟨v, -, he⟩ | ⟨v, -, he⟩ | ⟨v, -, he⟩ | ⟨w, hw, he⟩ <;> rw [he] at h
  iterate 4 (cases h; exact .inl hovr)
  cases hb : s.busy with
  | false => exact .inr ⟨hw, rfl⟩
  | true =>
    cases (issueWord_busy (s := respond .ack s) hb w).symm.trans h
    exact .inl (Status.ovr_overrun _)

/-- Settles O9: the drop is the overrun of STATUS, and OVR outlives every event but a reset and a CMD write while idle. -/
theorem busyDropsTheCommandWrite : Obligations.BusyDropsTheCommandWrite := by
  refine ⟨fun s w hb => ?_, fun s i hb => ?_, fun s t e h hset hclear => ?_⟩
  · rw [issueWord_busy hb, dropCommand_eq]
  · rw [exec_busy i hb, dropCommand_eq]
  · cases e with
    | read | write => exact .inr ((deliver_access_ovr rfl h hset).resolve_left (by simp [hclear]))
    | engine => simp [engineStep_ovr h, hset] at hclear
    | reset => exact .inl rfl

/-! ### A host access completes in its own event (R245) -/

theorem issueWord_cfg {w : Word} {s t : State} (h : issueWord w s = .next t) : t.cfg = s.cfg := by
  rcases issueWord_cases w s with ⟨-, he⟩ | ⟨-, c, -, he⟩ | ⟨-, i, -, -, he⟩ <;> cases he.symm.trans h
  · rfl
  · rfl
  · exact latchOf_cfg i _

theorem deliver_access_cfg {s t : State} {e : Event} (ha : e.isAccess = true) (h : deliver e s = .next t) :
    t.cfg = s.cfg := by
  rcases deliver_access_cases s ha with ⟨r, he⟩ | ⟨v, -, he⟩ | ⟨v, -, he⟩ | ⟨v, -, he⟩ | ⟨w, -, he⟩ <;> rw [he] at h
  iterate 4 (cases h; rfl)
  exact issueWord_cfg (s := respond .ack s) h

/-- Settles O15: the access answers, and its step takes the oldest event. -/
theorem hostAccessNeverStalls : Obligations.HostAccessNeverStalls := by
  intro s e rest hev ha
  obtain ⟨t, ht⟩ := deliver_access_next { s with events := rest } ha
  have hstep := (step_cons hev).trans ht
  exact ⟨t, hstep, by rw [step_events hstep, hev, List.tail_cons],
    deliver_access_cfg (s := { s with events := rest }) ha ht⟩

/-! ### Reset, and the first command after it (R230, R233) -/

/-- Settles O30, field by field of the reset. -/
theorem resetEventClearsTheBlock : Obligations.ResetEventClearsTheBlock := fun s =>
  ⟨resetBlock s, rfl, rfl, rfl, rfl, rfl, Status.pack_reset, rfl, rfl, rfl, rfl⟩

/-- A command's own word, placed at the head of the pending events, is the command the next step runs. -/
theorem step_withFetchWord_encode (i : Instr) (s : State) :
    step (s.withFetchWord 32 (encode i).toNat) = exec i { s with response := .ack } := by
  have hword : tableWord 32 (encode i).toNat = encode i := by
    rw [tableWord, Nat.mod_eq_of_lt (encode i).isLt, BitVec.ofNat_toNat, BitVec.setWidth_eq]
  have hevents : (s.withFetchWord 32 (encode i).toNat).events =
      .write (s.cfg.windowBase + 0x0C) (lanesOfWord (encode i)) :: s.events := by
    rw [State.withFetchWord, hword]
    rfl
  have hdec : decodeBytes (lanesOfWord (encode i)) = .ok i :=
    (decodeBytesIffEncodeBytes i (encodeBytes i) (by cases i <;> rfl)).2 rfl
  exact stepRunsDecodedCommand _ i _ s.events hevents hdec

/-- The block after an ISPRIME issued straight after reset: in phase TD_PRE, with n = ARG0 = 0 (30_encoding.md R77). -/
def State.resetIsprime : State := latchOf .isprime { State.reset with response := .ack, cmd := encode .isprime }

theorem step_reset_withFetchWord_isprime :
    step (State.reset.withFetchWord 32 (encode .isprime).toNat) = .next State.resetIsprime :=
  (step_withFetchWord_encode .isprime State.reset).trans
    (exec_accepted (s := { State.reset with response := .ack }) Status.busy_zero rfl)

/-- 0 is not prime: TD_PRE answers COMPOSITE for it, and ISPRIME completes (42_primality.md R162, R165). -/
theorem step_resetIsprime : step State.resetIsprime = .next (complete 0#32 State.resetIsprime) :=
  calc step State.resetIsprime = engineStep State.resetIsprime := step_nil rfl
    _ = tdReturn .composite State.resetIsprime := engineStep_tdPre_le_two rfl (Nat.zero_le 2)
    _ = .next (complete 0#32 State.resetIsprime) :=
      let ⟨_, hcomposite, _⟩ := tdReturn_isprime rfl; hcomposite

/-- Settles O31: ARG2 = 0 is POWMOD's operand error; ISPRIME is accepted, and the engine's one turn completes it. -/
theorem firstCommandAfterReset : Obligations.FirstCommandAfterReset := by
  constructor
  · obtain ⟨-, hmodZero, -⟩ := operandErrorReportedAtAcceptance { State.reset with response := .ack } Status.busy_zero
    exact ⟨_, (step_withFetchWord_encode .powmod State.reset).trans (hmodZero rfl), rfl, rfl, rfl, rfl⟩
  · exact ⟨_, (run_succ 1 step_reset_withFetchWord_isprime).trans (run_succ 0 step_resetIsprime),
      Status.completed_accepted, rfl, rfl, rfl⟩

end Sys2Proof.Machine
end
